-- ==== Sys2Proof/Word.lean ====
section
/-! DEFINITION. The plain data every other file is built from: the byte of the instruction stream,
the 16-bit value of an address or a wide immediate, and the text the renderer puts out. -/

namespace Sys2Proof

/-- A byte is 8 bits, bit 7 the most significant (00_scope.md R8). -/
abbrev Byte := BitVec 8

/-- A 16-bit unsigned value: an `Imm16`, an `AbsoluteMem` address, an address of the target
(00_scope.md R5, R6). -/
abbrev Word16 := BitVec 16

/-- Rendered text: a sequence of characters with no line terminator (45_renderer.md R181). -/
abbrev Text := List Char

end Sys2Proof
end

