-- ==== Sys2Proof/Machine/DataModel.lean ====
section
/-! DEFINITION. The data model of 10_state.md: the types of the values that cross the block's
boundary. The types are abstract, with no numbering and no bit layout (92_eei_decisions.md D15). -/

namespace Sys2Proof

/-- An Opcode is one of exactly these 38 names, labels only (R13). -/
inductive Opcode where
  | adc | or | and | xor | add | sbc | cmp
  | rcl | rcr
  | inc | dec | incW
  | movRegToAcc | movAccToReg | loadImm8 | loadAbs16 | storeAbs16
  | loadIndirect | storeIndirect | loadIndirectOffset | storeIndirectOffset
  | scf | ccf | bit
  | jz | jnz | jc | jnc | jccLowGroup | jccHighGroup | jmp | call | ret | iret
  | push | pop
  | op5xHi | op6xHi
deriving DecidableEq, Repr

/-- An Operand is a tagged union of exactly these nine variants (R11). A register index is held as
a natural number: the decoder makes only 0 to 7, and 45_renderer.md R179 takes `Register{n = 9}`
as lying inside the variant's type. -/
inductive Operand where
  /-- The slot is unused; never handed to a caller. -/
  | empty
  /-- Direct register reference `rN`. -/
  | register (n : Nat)
  /-- Register pair `rN:rN+1`; an odd `n` is permitted (R12). -/
  | registerPair (n : Nat)
  /-- Memory at a fixed address. -/
  | absoluteMem (addr : Word16)
  /-- Memory at `[rN:rN+1]`. -/
  | indirectMem (n : Nat)
  /-- Memory at `[rN:rN+1 + offs]`, `offs` unsigned. -/
  | indirectMemOffset (n : Nat) (offs : Byte)
  /-- A displacement from the address of the next instruction, -128 to 127. -/
  | relativeBranch (rel : Int)
  /-- An 8-bit unsigned immediate. -/
  | imm8 (imm : Byte)
  /-- A 16-bit unsigned immediate. -/
  | imm16 (imm : Word16)
deriving DecidableEq, Repr

/-- The names of the nine variants, without their fields: what the signature table of R14 holds. -/
inductive Variant where
  | empty | register | registerPair | absoluteMem | indirectMem | indirectMemOffset
  | relativeBranch | imm8 | imm16
deriving DecidableEq, Repr

/-- An Instruction record (R15): the opcode, the two operand slots, how many of them are used, and
the number of bytes consumed. Counts are natural numbers (92_eei_decisions.md D14). -/
structure Instruction where
  opcode : Opcode
  slot0 : Operand
  slot1 : Operand
  operandCount : Nat
  byteLength : Nat
deriving DecidableEq, Repr

/-- A DecodeError is one of exactly two kinds and carries nothing else (R19, 60_exceptions.md R190). -/
inductive DecodeError where
  /-- The cursor ran out of bytes while another byte was needed (R191). -/
  | truncated
  /-- The opcode byte begins no instruction (R192). -/
  | invalidOpcode
deriving DecidableEq, Repr

/-- The result of a decode transaction: an Instruction or a DecodeError, never both (R19, R195). -/
inductive DecodeResult where
  | instruction (ins : Instruction)
  | error (e : DecodeError)
deriving DecidableEq, Repr

/-- The eleven families 0x00 to 0x50 whose opcode the parameter FAMILY_OP gives (00_scope.md R7). -/
inductive RegFamily where
  | f00 | f08 | f10 | f18 | f20 | f28 | f30 | f38 | f40 | f48 | f50
deriving DecidableEq, Repr

end Sys2Proof
end

