-- ==== Sys2Proof/Syntax.lean ====
section
/-! DEFINITION. The encoded instructions: one constructor for each mnemonic of
spec/opcode_table.json, its arguments the fields of the encoding (30_encoding.md R46).

The table splits the bytes of one mnemonic over several rows only so that each row is one aligned
block of bytes (R63); those rows are one constructor here, and WellFormed.lean says which values of
the field the rows leave out. Which opcode a `familyXX` constructor carries is not part of the
syntax: it is the parameter FAMILY_OP (R61). -/

namespace Sys2Proof

/-- The instructions, in the order of the opcode table. `n`, `k` and `c` are the low three bits of
the opcode byte, `r` the displacement byte, `offs` and `imm` a follow-on byte or a 16-bit value. -/
inductive Instr where
  /-- Family 0x00, `00000nnn` (R61). -/
  | family00 (n : BitVec 3)
  /-- Family 0x08, `00001nnn` (R61). -/
  | family08 (n : BitVec 3)
  /-- Family 0x10, `00010nnn` (R61). -/
  | family10 (n : BitVec 3)
  /-- Family 0x18, `00011nnn` (R61). -/
  | family18 (n : BitVec 3)
  /-- Family 0x20, `00100nnn` (R61). -/
  | family20 (n : BitVec 3)
  /-- `Xor`, `00101nnn` (R73). -/
  | xor (n : BitVec 3)
  /-- Family 0x30, `00110nnn` (R61). -/
  | family30 (n : BitVec 3)
  /-- Family 0x38, `00111nnn` (R61). -/
  | family38 (n : BitVec 3)
  /-- Family 0x40, `01000nnn` (R61). -/
  | family40 (n : BitVec 3)
  /-- `Sbc`, `01001nnn` (R75). -/
  | sbc (n : BitVec 3)
  /-- Family 0x50, `01010nnn` (R61). -/
  | family50 (n : BitVec 3)
  /-- `Op5xHi`, `01011kkk` but for `kkk = 001` (R91). -/
  | op5xHi (k : BitVec 3)
  /-- `Scf`, the byte 0x59 (R90). -/
  | scf
  /-- `Bit`, `01100kkk` (R92). -/
  | bit (k : BitVec 3)
  /-- `Op6xHi`, `01101kkk` but for `kkk = 001` (R94). -/
  | op6xHi (k : BitVec 3)
  /-- `Ccf`, the byte 0x69 (R93). -/
  | ccf
  /-- `MovAccToReg`, `01110nnn` (R81). -/
  | movAccToReg (n : BitVec 3)
  /-- `Cmp`, `01111nnn` (R82). -/
  | cmp (n : BitVec 3)
  /-- `Push`, `10000nnn` (R83). -/
  | push (n : BitVec 3)
  /-- `Pop`, `10001nnn` (R84). -/
  | pop (n : BitVec 3)
  /-- `Jnz`, `10010000 rrrrrrrr` (R100). -/
  | jnz (r : Byte)
  /-- `Jnc`, `10010001 rrrrrrrr` (R101). -/
  | jnc (r : Byte)
  /-- `JccLowGroup`, `10010ccc rrrrrrrr` with `ccc` from 2 to 7 (R102). -/
  | jccLowGroup (c : BitVec 3) (r : Byte)
  /-- `Jz`, `10011000 rrrrrrrr` (R103). -/
  | jz (r : Byte)
  /-- `Jc`, `10011001 rrrrrrrr` (R104). -/
  | jc (r : Byte)
  /-- `JccHighGroup`, `10011ccc rrrrrrrr` with `ccc` from 2 to 7 (R105). -/
  | jccHighGroup (c : BitVec 3) (r : Byte)
  /-- The table's `(invalid)` rows: one of the 28 opcode bytes that begin no instruction (R57).
  Its meaning is the error `InvalidOpcode`. -/
  | invalid (op : Byte)
  /-- `Ret`, the byte 0xb9 (R106). -/
  | ret
  /-- `Iret`, the byte 0xba (R107). -/
  | iret
  /-- `Jmp`, `10111100 llllllll hhhhhhhh` (R108). -/
  | jmp (imm : Word16)
  /-- `Call`, `10111111 llllllll hhhhhhhh` (R109). -/
  | call (imm : Word16)
  /-- `IncW`, `11000nnn` (R85). -/
  | incW (n : BitVec 3)
  /-- `StoreAbs16`, `11001nnn llllllll hhhhhhhh` (R120). -/
  | storeAbs16 (n : BitVec 3) (addr : Word16)
  /-- `StoreIndirect`, `11010nnn` (R121). -/
  | storeIndirect (n : BitVec 3)
  /-- `StoreIndirectOffset`, `11011nnn oooooooo` (R122). -/
  | storeIndirectOffset (n : BitVec 3) (offs : Byte)
  /-- `LoadImm8`, `11100nnn iiiiiiii` (R123). -/
  | loadImm8 (n : BitVec 3) (imm : Byte)
  /-- `LoadAbs16`, `11101nnn llllllll hhhhhhhh` (R124). -/
  | loadAbs16 (n : BitVec 3) (addr : Word16)
  /-- `LoadIndirect`, `11110nnn` (R125). -/
  | loadIndirect (n : BitVec 3)
  /-- `LoadIndirectOffset`, `11111nnn oooooooo` (R126). -/
  | loadIndirectOffset (n : BitVec 3) (offs : Byte)
deriving DecidableEq, Repr

end Sys2Proof
end

