-- ==== Sys2Proof/WellFormed.lean ====
section
/-! DEFINITION. Which terms of `Instr` the encoding has: the values that the exact-value overrides
take out of a field, and the 28 bytes that are invalid. -/

namespace Sys2Proof

/-- The opcode bytes that begin no instruction: 0xa0 to 0xb7, 0xb8, 0xbb, 0xbd, 0xbe (30_encoding.md
R57). -/
def isInvalidByte (op : Byte) : Bool :=
  (0xa0#8 ≤ op && op ≤ 0xb8#8) || op == 0xbb#8 || op == 0xbd#8 || op == 0xbe#8

/-- Every field at a value the encoding admits (30_encoding.md R51, R57). -/
def Instr.wellFormed : Instr → Bool
  | .op5xHi k => k != 1#3
  | .op6xHi k => k != 1#3
  | .jccLowGroup c _ => 2#3 ≤ c
  | .jccHighGroup c _ => 2#3 ≤ c
  | .invalid op => isInvalidByte op
  | .family00 _ | .family08 _ | .family10 _ | .family18 _ | .family20 _ | .xor _
  | .family30 _ | .family38 _ | .family40 _ | .sbc _ | .family50 _
  | .scf | .bit _ | .ccf
  | .movAccToReg _ | .cmp _ | .push _ | .pop _
  | .jnz _ | .jnc _ | .jz _ | .jc _
  | .ret | .iret | .jmp _ | .call _
  | .incW _ | .storeAbs16 _ _ | .storeIndirect _ | .storeIndirectOffset _ _
  | .loadImm8 _ _ | .loadAbs16 _ _ | .loadIndirect _ | .loadIndirectOffset _ _ => true

end Sys2Proof
end

