-- ==== Sys2Proof/Decode.lean ====
section
/-! DEFINITION. From bytes to an encoded instruction and back (30_encoding.md), and the opcode table
row by row. The decoder is total on any bytes: it answers an instruction, or the error `truncated`;
a byte that begins no instruction is read as `Instr.invalid`, whose meaning is the error
`InvalidOpcode`. -/

namespace Sys2Proof

/-- `op & 0xF8`, the top five bits (R47). -/
def opFamily (op : Byte) : Byte := op &&& 0xf8#8

/-- `op & 0x07`, the bottom three bits (R47). -/
def opLow (op : Byte) : BitVec 3 := op.extractLsb' 0 3

/-- `b1 | (b2 << 8)`: low byte first (20_memory.md R37, 30_encoding.md R53). -/
def value16 (b1 b2 : Byte) : Word16 := b2 ++ b1

/-- How many follow-on bytes the opcode byte asks for: its length by R45, less one. An invalid byte
asks for none (R57). -/
def followOn (op : Byte) : Nat :=
  if opFamily op ∈ [0x90#8, 0x98#8, 0xd8#8, 0xe0#8, 0xf8#8] then 1
  else if op ∈ [0xbc#8, 0xbf#8] ∨ opFamily op ∈ [0xc8#8, 0xe8#8] then 2
  else 0

/-- The dispatch of R48: the instruction an opcode byte and its follow-on bytes stand for. A
follow-on byte that the instruction does not have is not looked at. -/
def assemble (op b1 b2 : Byte) : Instr :=
  match opFamily op with
  | 0x00#8 => .family00 (opLow op)
  | 0x08#8 => .family08 (opLow op)
  | 0x10#8 => .family10 (opLow op)
  | 0x18#8 => .family18 (opLow op)
  | 0x20#8 => .family20 (opLow op)
  | 0x28#8 => .xor (opLow op)
  | 0x30#8 => .family30 (opLow op)
  | 0x38#8 => .family38 (opLow op)
  | 0x40#8 => .family40 (opLow op)
  | 0x48#8 => .sbc (opLow op)
  | 0x50#8 => .family50 (opLow op)
  | 0x58#8 => if op = 0x59#8 then .scf else .op5xHi (opLow op)
  | 0x60#8 => .bit (opLow op)
  | 0x68#8 => if op = 0x69#8 then .ccf else .op6xHi (opLow op)
  | 0x70#8 => .movAccToReg (opLow op)
  | 0x78#8 => .cmp (opLow op)
  | 0x80#8 => .push (opLow op)
  | 0x88#8 => .pop (opLow op)
  | 0x90#8 =>
    if opLow op = 0#3 then .jnz b1 else if opLow op = 1#3 then .jnc b1
    else .jccLowGroup (opLow op) b1
  | 0x98#8 =>
    if opLow op = 0#3 then .jz b1 else if opLow op = 1#3 then .jc b1
    else .jccHighGroup (opLow op) b1
  | 0xb8#8 =>
    if op = 0xb9#8 then .ret else if op = 0xba#8 then .iret
    else if op = 0xbc#8 then .jmp (value16 b1 b2) else if op = 0xbf#8 then .call (value16 b1 b2)
    else .invalid op
  | 0xc0#8 => .incW (opLow op)
  | 0xc8#8 => .storeAbs16 (opLow op) (value16 b1 b2)
  | 0xd0#8 => .storeIndirect (opLow op)
  | 0xd8#8 => .storeIndirectOffset (opLow op) b1
  | 0xe0#8 => .loadImm8 (opLow op) b1
  | 0xe8#8 => .loadAbs16 (opLow op) (value16 b1 b2)
  | 0xf0#8 => .loadIndirect (opLow op)
  | 0xf8#8 => .loadIndirectOffset (opLow op) b1
  | _ => .invalid op

/-- Decode the instruction at the head of a byte sequence and give the rest back. The length comes
from the opcode byte alone (R59); too few bytes are `truncated` (60_exceptions.md R191). -/
def decode : List Byte → Except DecodeError (Instr × List Byte)
  | [] => .error .truncated
  | op :: rest =>
    match followOn op, rest with
    | 0, rest => .ok (assemble op 0#8 0#8, rest)
    | 1, b1 :: rest => .ok (assemble op b1 0#8, rest)
    | 2, b1 :: b2 :: rest => .ok (assemble op b1 b2, rest)
    | _, _ => .error .truncated

/-- An opcode byte made of a family and its low three bits (R46). -/
def opcodeByte (family : Byte) (low : BitVec 3) : Byte := family ||| low.setWidth 8

/-- The low byte of a 16-bit value, byte 1 of formats J and RA (R46). -/
def lowByte (v : Word16) : Byte := v.extractLsb' 0 8

/-- The high byte of a 16-bit value, byte 2 of formats J and RA (R46). -/
def highByte (v : Word16) : Byte := v.extractLsb' 8 8

/-- The bytes of an instruction, the first byte first (R46, R48). -/
def encode : Instr → List Byte
  | .family00 n => [opcodeByte 0x00#8 n]
  | .family08 n => [opcodeByte 0x08#8 n]
  | .family10 n => [opcodeByte 0x10#8 n]
  | .family18 n => [opcodeByte 0x18#8 n]
  | .family20 n => [opcodeByte 0x20#8 n]
  | .xor n => [opcodeByte 0x28#8 n]
  | .family30 n => [opcodeByte 0x30#8 n]
  | .family38 n => [opcodeByte 0x38#8 n]
  | .family40 n => [opcodeByte 0x40#8 n]
  | .sbc n => [opcodeByte 0x48#8 n]
  | .family50 n => [opcodeByte 0x50#8 n]
  | .op5xHi k => [opcodeByte 0x58#8 k]
  | .scf => [0x59#8]
  | .bit k => [opcodeByte 0x60#8 k]
  | .op6xHi k => [opcodeByte 0x68#8 k]
  | .ccf => [0x69#8]
  | .movAccToReg n => [opcodeByte 0x70#8 n]
  | .cmp n => [opcodeByte 0x78#8 n]
  | .push n => [opcodeByte 0x80#8 n]
  | .pop n => [opcodeByte 0x88#8 n]
  | .jnz r => [0x90#8, r]
  | .jnc r => [0x91#8, r]
  | .jccLowGroup c r => [opcodeByte 0x90#8 c, r]
  | .jz r => [0x98#8, r]
  | .jc r => [0x99#8, r]
  | .jccHighGroup c r => [opcodeByte 0x98#8 c, r]
  | .invalid op => [op]
  | .ret => [0xb9#8]
  | .iret => [0xba#8]
  | .jmp imm => [0xbc#8, lowByte imm, highByte imm]
  | .call imm => [0xbf#8, lowByte imm, highByte imm]
  | .incW n => [opcodeByte 0xc0#8 n]
  | .storeAbs16 n addr => [opcodeByte 0xc8#8 n, lowByte addr, highByte addr]
  | .storeIndirect n => [opcodeByte 0xd0#8 n]
  | .storeIndirectOffset n offs => [opcodeByte 0xd8#8 n, offs]
  | .loadImm8 n imm => [opcodeByte 0xe0#8 n, imm]
  | .loadAbs16 n addr => [opcodeByte 0xe8#8 n, lowByte addr, highByte addr]
  | .loadIndirect n => [opcodeByte 0xf0#8 n]
  | .loadIndirectOffset n offs => [opcodeByte 0xf8#8 n, offs]

/-- The length in bytes of each instruction (R45); an invalid byte is consumed alone (60_exceptions.md
R197). -/
def Instr.length : Instr → Nat
  | .jnz _ | .jnc _ | .jccLowGroup _ _ | .jz _ | .jc _ | .jccHighGroup _ _
  | .storeIndirectOffset _ _ | .loadImm8 _ _ | .loadIndirectOffset _ _ => 2
  | .jmp _ | .call _ | .storeAbs16 _ _ | .loadAbs16 _ _ => 3
  | .family00 _ | .family08 _ | .family10 _ | .family18 _ | .family20 _ | .xor _
  | .family30 _ | .family38 _ | .family40 _ | .sbc _ | .family50 _
  | .op5xHi _ | .scf | .bit _ | .op6xHi _ | .ccf
  | .movAccToReg _ | .cmp _ | .push _ | .pop _
  | .invalid _ | .ret | .iret
  | .incW _ | .storeIndirect _ | .loadIndirect _ => 1

/-- The mnemonic of the opcode table's rows that the instruction belongs to. -/
def Instr.mnemonic : Instr → String
  | .family00 _ => "FAMILY_OP(0x00)"
  | .family08 _ => "FAMILY_OP(0x08)"
  | .family10 _ => "FAMILY_OP(0x10)"
  | .family18 _ => "FAMILY_OP(0x18)"
  | .family20 _ => "FAMILY_OP(0x20)"
  | .xor _ => "Xor"
  | .family30 _ => "FAMILY_OP(0x30)"
  | .family38 _ => "FAMILY_OP(0x38)"
  | .family40 _ => "FAMILY_OP(0x40)"
  | .sbc _ => "Sbc"
  | .family50 _ => "FAMILY_OP(0x50)"
  | .op5xHi _ => "Op5xHi"
  | .scf => "Scf"
  | .bit _ => "Bit"
  | .op6xHi _ => "Op6xHi"
  | .ccf => "Ccf"
  | .movAccToReg _ => "MovAccToReg"
  | .cmp _ => "Cmp"
  | .push _ => "Push"
  | .pop _ => "Pop"
  | .jnz _ => "Jnz"
  | .jnc _ => "Jnc"
  | .jccLowGroup _ _ => "JccLowGroup"
  | .jz _ => "Jz"
  | .jc _ => "Jc"
  | .jccHighGroup _ _ => "JccHighGroup"
  | .invalid _ => "(invalid)"
  | .ret => "Ret"
  | .iret => "Iret"
  | .jmp _ => "Jmp"
  | .call _ => "Call"
  | .incW _ => "IncW"
  | .storeAbs16 _ _ => "StoreAbs16"
  | .storeIndirect _ => "StoreIndirect"
  | .storeIndirectOffset _ _ => "StoreIndirectOffset"
  | .loadImm8 _ _ => "LoadImm8"
  | .loadAbs16 _ _ => "LoadAbs16"
  | .loadIndirect _ => "LoadIndirect"
  | .loadIndirectOffset _ _ => "LoadIndirectOffset"

/-- A row of spec/opcode_table.json: it is selected by the opcode bytes `b` with
`b & mask = pattern`, and gives the length in bytes (R63). -/
structure OpcodeRow where
  mnemonic : String
  pattern : Byte
  mask : Byte
  length : Nat
deriving DecidableEq, Repr

/-- Whether an opcode byte selects a row (R63). -/
def OpcodeRow.selects (row : OpcodeRow) (op : Byte) : Bool := op &&& row.mask == row.pattern

/-- The rows of the families 0x00 to 0x88, all one byte long. -/
def opcodeRowsOneByte : List OpcodeRow :=
  [⟨"FAMILY_OP(0x00)", 0x00#8, 0xf8#8, 1⟩, ⟨"FAMILY_OP(0x08)", 0x08#8, 0xf8#8, 1⟩,
   ⟨"FAMILY_OP(0x10)", 0x10#8, 0xf8#8, 1⟩, ⟨"FAMILY_OP(0x18)", 0x18#8, 0xf8#8, 1⟩,
   ⟨"FAMILY_OP(0x20)", 0x20#8, 0xf8#8, 1⟩, ⟨"Xor", 0x28#8, 0xf8#8, 1⟩,
   ⟨"FAMILY_OP(0x30)", 0x30#8, 0xf8#8, 1⟩, ⟨"FAMILY_OP(0x38)", 0x38#8, 0xf8#8, 1⟩,
   ⟨"FAMILY_OP(0x40)", 0x40#8, 0xf8#8, 1⟩, ⟨"Sbc", 0x48#8, 0xf8#8, 1⟩,
   ⟨"FAMILY_OP(0x50)", 0x50#8, 0xf8#8, 1⟩,
   ⟨"Op5xHi", 0x58#8, 0xff#8, 1⟩, ⟨"Scf", 0x59#8, 0xff#8, 1⟩, ⟨"Op5xHi", 0x5a#8, 0xfe#8, 1⟩,
   ⟨"Op5xHi", 0x5c#8, 0xfc#8, 1⟩, ⟨"Bit", 0x60#8, 0xf8#8, 1⟩,
   ⟨"Op6xHi", 0x68#8, 0xff#8, 1⟩, ⟨"Ccf", 0x69#8, 0xff#8, 1⟩, ⟨"Op6xHi", 0x6a#8, 0xfe#8, 1⟩,
   ⟨"Op6xHi", 0x6c#8, 0xfc#8, 1⟩,
   ⟨"MovAccToReg", 0x70#8, 0xf8#8, 1⟩, ⟨"Cmp", 0x78#8, 0xf8#8, 1⟩,
   ⟨"Push", 0x80#8, 0xf8#8, 1⟩, ⟨"Pop", 0x88#8, 0xf8#8, 1⟩]

/-- The rows of the families 0x90 to 0xf8. -/
def opcodeRowsHigh : List OpcodeRow :=
  [⟨"Jnz", 0x90#8, 0xff#8, 2⟩, ⟨"Jnc", 0x91#8, 0xff#8, 2⟩,
   ⟨"JccLowGroup", 0x92#8, 0xfe#8, 2⟩, ⟨"JccLowGroup", 0x94#8, 0xfc#8, 2⟩,
   ⟨"Jz", 0x98#8, 0xff#8, 2⟩, ⟨"Jc", 0x99#8, 0xff#8, 2⟩,
   ⟨"JccHighGroup", 0x9a#8, 0xfe#8, 2⟩, ⟨"JccHighGroup", 0x9c#8, 0xfc#8, 2⟩,
   ⟨"(invalid)", 0xa0#8, 0xf0#8, 1⟩, ⟨"(invalid)", 0xb0#8, 0xf8#8, 1⟩,
   ⟨"(invalid)", 0xb8#8, 0xff#8, 1⟩, ⟨"Ret", 0xb9#8, 0xff#8, 1⟩, ⟨"Iret", 0xba#8, 0xff#8, 1⟩,
   ⟨"(invalid)", 0xbb#8, 0xff#8, 1⟩, ⟨"Jmp", 0xbc#8, 0xff#8, 3⟩,
   ⟨"(invalid)", 0xbd#8, 0xff#8, 1⟩, ⟨"(invalid)", 0xbe#8, 0xff#8, 1⟩, ⟨"Call", 0xbf#8, 0xff#8, 3⟩,
   ⟨"IncW", 0xc0#8, 0xf8#8, 1⟩, ⟨"StoreAbs16", 0xc8#8, 0xf8#8, 3⟩,
   ⟨"StoreIndirect", 0xd0#8, 0xf8#8, 1⟩, ⟨"StoreIndirectOffset", 0xd8#8, 0xf8#8, 2⟩,
   ⟨"LoadImm8", 0xe0#8, 0xf8#8, 2⟩, ⟨"LoadAbs16", 0xe8#8, 0xf8#8, 3⟩,
   ⟨"LoadIndirect", 0xf0#8, 0xf8#8, 1⟩, ⟨"LoadIndirectOffset", 0xf8#8, 0xf8#8, 2⟩]

/-- The 50 rows of spec/opcode_table.json, in its order (R63). -/
def opcodeTable : List OpcodeRow := opcodeRowsOneByte ++ opcodeRowsHigh

/-- Byte `i` of an instruction whose bits are `w`, the first byte the least significant. -/
def tableByte (w i : Nat) : Byte := BitVec.ofNat 8 (w / 256 ^ i)

/-- The bytes of an instruction whose first `nbits` bits are `w` and whose further bits are zero, up
to the longest instruction (3 bytes, 00_scope.md R6). -/
def tableBytes (nbits w : Nat) : List Byte :=
  let v := w % 2 ^ nbits
  [tableByte v 0, tableByte v 1, tableByte v 2]

/-- The instruction the decoder reads from the bits `w`, as spec/opcode_table.json numbers them. -/
def decodeTableWord (nbits w : Nat) : Option Instr :=
  match decode (tableBytes nbits w) with
  | .ok (i, _) => some i
  | .error _ => none

end Sys2Proof
end

