-- ==== Sys2Proof/Config.lean ====
section
/-! DEFINITION. What is fixed for the machine: the descriptor constants of 00_scope.md R5 and R6,
and the values the spec leaves open, as constants with no body, so that nothing can be proved that
rests on one particular value. -/

namespace Sys2Proof.Config

/-- ADDR_WIDTH: the address width of the target in bits (R5). -/
def addrWidth : Nat := 16

/-- WORD_WIDTH: the minimum instruction width in bits (R5). -/
def wordWidth : Nat := 8

/-- MIN_LEN: the minimum instruction length in bytes (R5). -/
def minLen : Nat := 1

/-- MAX_LEN: the maximum instruction length in bytes (R6). -/
def maxLen : Nat := 3

/-- The open parameter FAMILY_OP (R7, 92_eei_decisions.md D2), as the number of one of the allowed
bijections: Machine/FamilyOp.lean turns a number into its bijection, and every allowed bijection
has a number. Log entry 1. -/
opaque familyRank : Nat

/-- The open parameter PAIR_HIGH_FIRST (R7, D24): whether `rN` is the high byte of the pair
`rN:rN+1`. No rule of the block uses it; only what a caller computes (R127) does. Log entry 2. -/
opaque pairHighFirst : Bool

/-- The open parameter LOAD_ADDRESS (R7): the 16-bit address of the first byte of the stream, known
to the caller and not to the block. Log entry 3. -/
opaque loadAddress : Word16

/-- What a caller gets for the address `rN:rN+1 + offs` when the exact sum is above 0xffff: the spec
does not state whether the sum wraps (R127, 91_not_in_source.md N23), so it is free, applied to the
pair's value and the offset. Log entry 4. -/
opaque offsetSumBeyondRange : Word16 → Byte → Word16

end Sys2Proof.Config
end

