-- ==== Sys2Proof/Machine/Operands.lean ====
section
/-! DEFINITION. Operands and the Instruction record: the signature of each opcode, the builders, the
accessors and the validity of a record (10_state.md R14 to R17, 45_renderer.md R179), and how a
displacement byte is read (00_scope.md R8). -/

namespace Sys2Proof.Machine

/-- `signed_8`: a byte as 8-bit two's complement (00_scope.md R8; 92_eei_decisions.md D31). -/
def signed8 (b : Byte) : Int := if b.toNat < 128 then b.toNat else (b.toNat : Int) - 256

/-- The variant of an operand (R11). -/
def variant : Operand → Variant
  | .empty => .empty
  | .register _ => .register
  | .registerPair _ => .registerPair
  | .absoluteMem _ => .absoluteMem
  | .indirectMem _ => .indirectMem
  | .indirectMemOffset _ _ => .indirectMemOffset
  | .relativeBranch _ => .relativeBranch
  | .imm8 _ => .imm8
  | .imm16 _ => .imm16

/-- The signature table of R14: the variants of an opcode's operands, in slot order. -/
def signature : Opcode → List Variant
  | .adc | .or | .and | .xor | .add | .sbc | .rcl | .rcr | .inc | .dec | .movRegToAcc => [.register]
  | .movAccToReg | .cmp | .push | .pop => [.register]
  | .incW => [.registerPair]
  | .scf | .ccf | .ret | .iret => []
  | .op5xHi | .bit | .op6xHi => [.imm8]
  | .jnz | .jnc | .jz | .jc => [.relativeBranch]
  | .jccLowGroup | .jccHighGroup => [.imm8, .relativeBranch]
  | .jmp | .call => [.imm16]
  | .storeAbs16 | .loadAbs16 => [.register, .absoluteMem]
  | .storeIndirect | .loadIndirect => [.indirectMem]
  | .storeIndirectOffset | .loadIndirectOffset => [.indirectMemOffset]
  | .loadImm8 => [.register, .imm8]

/-- Arity of an opcode (R14). -/
def arity (opc : Opcode) : Nat := (signature opc).length

/-- The one field whose type is wider here than the variant's own: a displacement is 8-bit signed
(R11). -/
def operandInRange : Operand → Bool
  | .relativeBranch rel => -128 ≤ rel && rel ≤ 127
  | _ => true

/-- A valid Instruction (45_renderer.md R179): the count is the opcode's arity, each slot below it
holds the variant the signature names, each slot at or above it is `Empty`. -/
def isValid (ins : Instruction) : Bool :=
  let sig := signature ins.opcode
  ins.operandCount == sig.length
    && variant ins.slot0 == sig.getD 0 .empty && variant ins.slot1 == sig.getD 1 .empty
    && operandInRange ins.slot0 && operandInRange ins.slot1

/-- The builder of an Instruction with no operand (R17). `byteLength` 0 stands for 'unset'. -/
def build0 (opc : Opcode) : Instruction := ⟨opc, .empty, .empty, 0, 0⟩

/-- The builder of an Instruction with one operand (R17). -/
def build1 (opc : Opcode) (a : Operand) : Instruction := ⟨opc, a, .empty, 1, 0⟩

/-- The builder of an Instruction with two operands, in encoding order (R17, 30_encoding.md R54). -/
def build2 (opc : Opcode) (a b : Operand) : Instruction := ⟨opc, a, b, 2, 0⟩

/-- `length(ins)` (R16). -/
def lengthOf (ins : Instruction) : Nat := ins.byteLength

/-- `operand_count(ins)` (R16). -/
def operandCountOf (ins : Instruction) : Nat := ins.operandCount

/-- `operand(ins, i)` (R16): the slot for `i < operand_count`, else `none`; an index of 2 or more
reads no slot (92_eei_decisions.md D16). -/
def operandOf (ins : Instruction) (i : Nat) : Option Operand :=
  if i < ins.operandCount then
    match i with
    | 0 => some ins.slot0
    | 1 => some ins.slot1
    | _ => none
  else none

end Sys2Proof.Machine
end

