-- ==== Sys2Proof/Machine/Renderer.lean ====
section
/-! DEFINITION. The assembly renderer (45_renderer.md): number formats, operand text, one template
for each opcode, opcode names. It reads nothing but its argument (R131). -/

namespace Sys2Proof.Machine

/-- Literal text of a template. -/
def lit (s : String) : Text := s.toList

/-- `dec(v)`: decimal, no leading zeros (R130). -/
def decimal (v : Nat) : Text := Nat.toDigits 10 v

/-- `hex(v)`: lowercase hexadecimal, no prefix, no leading zeros (R130). -/
def hex (v : Nat) : Text := Nat.toDigits 16 v

/-- `hexN(v)`: as `hex(v)`, padded on the left with zeros to `n` digits (R130). -/
def hexPadded (n v : Nat) : Text := List.leftpad n '0' (hex v)

/-- `r<N>` (R132). -/
def registerText (n : Nat) : Text := 'r' :: decimal n

/-- `r<N>:r<N+1>`, the sum with no wrap (R133; 92_eei_decisions.md D7). -/
def pairText (n : Nat) : Text := registerText n ++ lit ":" ++ registerText (n + 1)

/-- `$+0x<hex>` or `$-0x<hex>` of the absolute value (R137). -/
def displacementText (rel : Int) : Text :=
  (if 0 ≤ rel then lit "$+0x" else lit "$-0x") ++ hex rel.natAbs

/-- `render_operand` (R132 to R140). -/
def renderOperand : Operand → Text
  | .register n => registerText n
  | .registerPair n => pairText n
  | .absoluteMem addr => lit "[0x" ++ hexPadded 4 addr.toNat ++ lit "]"
  | .indirectMem n => lit "[" ++ pairText n ++ lit "]"
  | .indirectMemOffset n offs => lit "[" ++ pairText n ++ lit " + 0x" ++ hex offs.toNat ++ lit "]"
  | .relativeBranch rel => displacementText rel
  | .imm8 imm => lit "0x" ++ hexPadded 2 imm.toNat
  | .imm16 imm => lit "0x" ++ hexPadded 4 imm.toNat
  | .empty => []

/-- `hex(s)` for the selector of the two jcc groups, the `imm` field of operand 0 (R169). Their
operand 0 is an `Imm8` in every valid Instruction, and the template is asked of no other. -/
def selectorText : Operand → Text
  | .imm8 imm => hex imm.toNat
  | _ => []

/-- The template of each opcode, over the two slots (R141 to R178). -/
def template (opc : Opcode) (a b : Operand) : Text :=
  match opc with
  | .adc => lit "adc r0, " ++ renderOperand a
  | .or => lit "r0 |= " ++ renderOperand a
  | .and => lit "r0 &= " ++ renderOperand a
  | .xor => lit "r0 ^= " ++ renderOperand a
  | .add => lit "r0 += " ++ renderOperand a
  | .sbc => lit "sbc r0, " ++ renderOperand a
  | .cmp => lit "cmp r0, " ++ renderOperand a
  | .rcl => lit "rcl " ++ renderOperand a
  | .rcr => lit "rcr " ++ renderOperand a
  | .inc => lit "inc " ++ renderOperand a
  | .dec => lit "dec " ++ renderOperand a
  | .incW => lit "incw " ++ renderOperand a
  | .movRegToAcc => lit "r0 <- " ++ renderOperand a
  | .movAccToReg => renderOperand a ++ lit " <- r0"
  | .loadImm8 => renderOperand a ++ lit " <- " ++ renderOperand b
  | .loadAbs16 => renderOperand a ++ lit " <- " ++ renderOperand b
  | .storeAbs16 => renderOperand b ++ lit " <- " ++ renderOperand a
  | .loadIndirect => lit "r0 <- " ++ renderOperand a
  | .storeIndirect => renderOperand a ++ lit " <- r0"
  | .loadIndirectOffset => lit "r0 <- " ++ renderOperand a
  | .storeIndirectOffset => renderOperand a ++ lit " <- r0"
  | .scf => lit "scf"
  | .ccf => lit "ccf"
  | .bit => lit "bit " ++ renderOperand a
  | .jz => lit "jz " ++ renderOperand a
  | .jnz => lit "jnz " ++ renderOperand a
  | .jc => lit "jc " ++ renderOperand a
  | .jnc => lit "jnc " ++ renderOperand a
  | .jccLowGroup => lit "jcc.lo." ++ selectorText a ++ lit " " ++ renderOperand b
  | .jccHighGroup => lit "jcc.hi." ++ selectorText a ++ lit " " ++ renderOperand b
  | .jmp => lit "jmp " ++ renderOperand a
  | .call => lit "call " ++ renderOperand a
  | .ret => lit "ret"
  | .iret => lit "iret"
  | .push => lit "push " ++ renderOperand a
  | .pop => lit "pop " ++ renderOperand a
  | .op5xHi => lit "op5xhi " ++ renderOperand a
  | .op6xHi => lit "op6xhi " ++ renderOperand a

/-- `render(ins)` over valid Instructions; `none` is 'no text is defined', for an Instruction out of
the renderer's contract (R131, R179). -/
def render (ins : Instruction) : Option Text :=
  if isValid ins then some (template ins.opcode ins.slot0 ins.slot1) else none

/-- `render_opcode(opc)` (R180). -/
def renderOpcode : Opcode → Text
  | .adc => lit "adc"
  | .or => lit "or"
  | .and => lit "and"
  | .xor => lit "xor"
  | .add => lit "add"
  | .sbc => lit "sbc"
  | .cmp => lit "cmp"
  | .rcl => lit "rcl"
  | .rcr => lit "rcr"
  | .inc => lit "inc"
  | .dec => lit "dec"
  | .incW => lit "incw"
  | .movRegToAcc => lit "movregtoacc"
  | .movAccToReg => lit "movacctoreg"
  | .loadImm8 => lit "loadimm8"
  | .loadAbs16 => lit "loadabs16"
  | .storeAbs16 => lit "storeabs16"
  | .loadIndirect => lit "loadindirect"
  | .storeIndirect => lit "storeindirect"
  | .loadIndirectOffset => lit "loadindirectoffset"
  | .storeIndirectOffset => lit "storeindirectoffset"
  | .scf => lit "scf"
  | .ccf => lit "ccf"
  | .bit => lit "bit"
  | .jz => lit "jz"
  | .jnz => lit "jnz"
  | .jc => lit "jc"
  | .jnc => lit "jnc"
  | .jccLowGroup => lit "jcc.lo"
  | .jccHighGroup => lit "jcc.hi"
  | .jmp => lit "jmp"
  | .call => lit "call"
  | .ret => lit "ret"
  | .iret => lit "iret"
  | .push => lit "push"
  | .pop => lit "pop"
  | .op5xHi => lit "op5xhi"
  | .op6xHi => lit "op6xhi"

end Sys2Proof.Machine
end

