-- ==== Sys2Proof/Machine/State.lean ====
section
/-! DEFINITION. The state, as plain data. The block keeps nothing between transactions (10_state.md
R10): it has no register file, no flags, no program counter and no control register (R21 to R25).
What there is to hold is the collaborator's byte stream and cursor (R20, 20_memory.md R30) and the
output of the last transaction (R19, R27): the Instruction or the error, and the rendered text. -/

namespace Sys2Proof.Machine

/-- The instruction byte stream (20_memory.md R30) as (position, byte) pairs, positions strictly
rising. A position that is not listed holds no byte: a read there is EndOfInput (R32). -/
abbrev Memory := List Host.Cell

/-- The canonical form: positions strictly rising. No entry can equal what an unlisted position reads
as, which is no byte at all. -/
abbrev Memory.wf (m : Memory) : Prop := m.Pairwise (fun x y => x.1 < y.1)

/-- The state between two transactions. -/
structure State where
  /-- The bytes a cursor can deliver, by stream position (20_memory.md R30). -/
  stream : Memory
  /-- The cursor's position `pos`, the place of the next byte (10_state.md R20). -/
  pos : Nat
  /-- The recorded mark `mark_pos` (10_state.md R20). -/
  mark : Nat
  /-- The result of the last transaction; `none` when there is none to read (R19, R27). -/
  result : Option DecodeResult
  /-- The renderer's text of the last transaction's Instruction; `none` when there is none. -/
  text : Option Text
deriving DecidableEq, Repr

/-- Why the machine stops with a fault. There is no such reason: 'no byte value reaches
undefined/panic behavior' (70_reset_and_hazards.md R221 (a)), no access can be misaligned (20_memory.md
R35), and both errors of the block are results of a transaction, taken as next states (60_exceptions.md
R190). The type has no constructor, so that no fault can be raised: safe. -/
inductive Fault where
deriving DecidableEq, Repr

/-- Why a request is refused. Only the first reason has the form of exec's refused arms; the others
are raised by the calls of Machine/Calls.lean and by no step. -/
inductive Refusal where
  /-- Raised by an arm of exec whose instruction has no meaning yet; no arm is of that kind. Safe: the
  machine stops where the hardware goes on. -/
  | notModelled (mnemonic : String)
  /-- Raised by a request to render an Instruction out of the renderer's contract, undefined behaviour
  by contract (45_renderer.md R179, 93_implementation_defined.md U2). Safe. -/
  | outOfContract
  /-- Raised by a request to execute a decoded instruction: its meaning on the hardware is unknown
  (00_scope.md R4, 92_eei_decisions.md D21). Safe. -/
  | executionUnknown
  /-- Raised by a request to read the Instruction when the last transaction left none
  (60_exceptions.md R195, 93_implementation_defined.md U1), or when there is no result at all (log entry
  20). Safe. -/
  | noInstruction
  /-- Raised by a request for two transactions at the same time on one cursor (20_memory.md R43,
  92_eei_decisions.md D22). Safe. -/
  | sharedCursor
deriving DecidableEq, Repr

/-- The machine after reset. The block itself has nothing to reset (10_state.md R27,
70_reset_and_hazards.md R210): no result is there to read. The stream and the cursor are the
collaborator's and the spec gives them no value; here the stream lists nothing and both positions are 0
(DESIGN CHOICE, log entry 5). -/
def State.reset : State := { stream := [], pos := 0, mark := 0, result := none, text := none }

end Sys2Proof.Machine
end

