-- ==== Sys2Proof/Machine/Ops.lean ====
section
/-! DEFINITION. The named operations: reading and writing the stream, the cursor's three operations
(20_memory.md R31 to R33), ending a transaction with an Instruction or with an error, and the decode
transaction of one instruction, which every meaning is one line over. -/

namespace Sys2Proof.Machine

/-- The byte at a stream position; `none` where the stream has none (R30). -/
def Memory.read : Memory → Nat → Option Byte
  | [], _ => none
  | (p, b) :: rest, a => if a = p then some b else Memory.read rest a

/-- The stream with the byte at one position replaced or added: the collaborator's act, for the
block writes no memory (20_memory.md R36). -/
def Memory.write : Memory → Nat → Byte → Memory
  | [], a, v => [(a, v)]
  | (p, b) :: rest, a, v =>
    if a < p then (a, v) :: (p, b) :: rest
    else if a = p then (a, v) :: rest
    else (p, b) :: Memory.write rest a v

/-- The bytes at `a`, `a + 1`, ..., at most `k` of them, up to the first position with no byte. -/
def Memory.peek (m : Memory) : Nat → Nat → List Byte
  | _, 0 => []
  | a, k + 1 =>
    match m.read a with
    | some b => b :: Memory.peek m (a + 1) k
    | none => []

/-- `cur.mark()` (R31). -/
def State.markCursor (s : State) : State := { s with mark := s.pos }

/-- The cursor one byte on: what a successful `cur.next()` does to it (R32). -/
def State.advance (s : State) : State := { s with pos := s.pos + 1 }

/-- `cur.next()` (R32): the byte and the advanced cursor, or `none` for EndOfInput, which advances
nothing. -/
def State.nextByte (s : State) : Option (Byte × State) :=
  match s.stream.read s.pos with
  | some b => some (b, s.advance)
  | none => none

/-- `cur.offset()`: `pos - mark_pos` (R33). What it is where the position is below the mark, as after a
move backwards, the spec does not say; the subtraction of natural numbers gives 0 there (DESIGN CHOICE,
unsafe, log entry 24). In a transaction the mark is never past the position. -/
def State.offset (s : State) : Nat := s.pos - s.mark

/-- `k` times `cur.next()`, ending at the first failure: the cursor afterwards, and whether all were
read. -/
def State.consume : Nat → State → State × Bool
  | 0, s => (s, true)
  | k + 1, s =>
    match s.nextByte with
    | some (_, s') => State.consume k s'
    | none => (s, false)

/-- The bytes at the cursor, at most as many as the longest instruction has (00_scope.md R6): what the
fetch looks at. Looking moves nothing; the reads are the transaction's. -/
def State.ahead (s : State) : List Byte := s.stream.peek s.pos Config.maxLen

/-- End a transaction with an Instruction (10_state.md R17, R18): `byte_length` is set from
`cur.offset()`, and the renderer's text of the record goes out with it. -/
def State.deliver (s : State) (ins : Instruction) : State :=
  let out := { ins with byteLength := s.offset }
  { s with result := some (.instruction out), text := render out }

/-- Take an error (60_exceptions.md R195, R197): the result is the error alone, no Instruction and no
text is left to read, and the cursor stays where the last successful `next()` put it. Nothing is
saved, no mode changes and no vector is taken, so there is no return from an error and nothing to
restore (R198): the next transaction starts from this state with its own mark. -/
def State.raise (s : State) (e : DecodeError) : State :=
  { s with result := some (.error e), text := none }

/-- The decode transaction of an instruction of `len` bytes that gives the record `ins` (30_encoding.md
R60): mark, `len` reads, then the record; or `Truncated` at the first read that finds no byte. -/
def State.transact (s : State) (len : Nat) (ins : Instruction) : State :=
  match s.markCursor.consume len with
  | (t, true) => t.deliver ins
  | (t, false) => t.raise .truncated

/-- The decode transaction of an opcode byte that begins no instruction (R57, 60_exceptions.md R194):
mark, one read, `InvalidOpcode`; `Truncated` if not even that byte is there. -/
def State.transactInvalid (s : State) : State :=
  match s.markCursor.consume 1 with
  | (t, true) => t.raise .invalidOpcode
  | (t, false) => t.raise .truncated

end Sys2Proof.Machine
end

