-- ==== Sys2Proof/Machine/ControlTransfer.lean ====
section
/-! DEFINITION. The control-transfer instructions (42_control_transfer.md): families 0x90, 0x98 and
0xb8, and the opcode bytes that begin no instruction. The block decodes and renders them and transfers
control nowhere; targets are a caller's arithmetic (Machine/Caller.lean). -/

namespace Sys2Proof.Machine

/-- `Jnz` (R100). -/
def execJnz (r : Byte) (s : State) : Host.Outcome State Fault Refusal :=
  .next (s.transact 2 (build1 .jnz (.relativeBranch (signed8 r))))

/-- `Jnc` (R101). -/
def execJnc (r : Byte) (s : State) : Host.Outcome State Fault Refusal :=
  .next (s.transact 2 (build1 .jnc (.relativeBranch (signed8 r))))

/-- `JccLowGroup` (R102): the selector in slot 0, the branch in slot 1. -/
def execJccLowGroup (c : BitVec 3) (r : Byte) (s : State) : Host.Outcome State Fault Refusal :=
  .next (s.transact 2 (build2 .jccLowGroup (.imm8 (c.setWidth 8)) (.relativeBranch (signed8 r))))

/-- `Jz` (R103). -/
def execJz (r : Byte) (s : State) : Host.Outcome State Fault Refusal :=
  .next (s.transact 2 (build1 .jz (.relativeBranch (signed8 r))))

/-- `Jc` (R104). -/
def execJc (r : Byte) (s : State) : Host.Outcome State Fault Refusal :=
  .next (s.transact 2 (build1 .jc (.relativeBranch (signed8 r))))

/-- `JccHighGroup` (R105): the selector in slot 0, the branch in slot 1. -/
def execJccHighGroup (c : BitVec 3) (r : Byte) (s : State) : Host.Outcome State Fault Refusal :=
  .next (s.transact 2 (build2 .jccHighGroup (.imm8 (c.setWidth 8)) (.relativeBranch (signed8 r))))

/-- The 28 opcode bytes that begin no instruction (30_encoding.md R57, 60_exceptions.md R192): the
error `InvalidOpcode`, whichever of them it is. -/
def execInvalid (_op : Byte) (s : State) : Host.Outcome State Fault Refusal :=
  .next s.transactInvalid

/-- `Ret` (R106). -/
def execRet (s : State) : Host.Outcome State Fault Refusal :=
  .next (s.transact 1 (build0 .ret))

/-- `Iret` (R107): decoded the same way in every circumstance. -/
def execIret (s : State) : Host.Outcome State Fault Refusal :=
  .next (s.transact 1 (build0 .iret))

/-- `Jmp` (R108). -/
def execJmp (imm : Word16) (s : State) : Host.Outcome State Fault Refusal :=
  .next (s.transact 3 (build1 .jmp (.imm16 imm)))

/-- `Call` (R109). -/
def execCall (imm : Word16) (s : State) : Host.Outcome State Fault Refusal :=
  .next (s.transact 3 (build1 .call (.imm16 imm)))

end Sys2Proof.Machine
end

