-- ==== Sys2Proof/Machine/FlagSelector.lean ====
section
/-! DEFINITION. The flag, bit and opaque selector instructions (41_flag_selector.md): families 0x58,
0x60 and 0x68. One byte each; the three low bits become an `Imm8` (30_encoding.md R51). The block has
no flag, also for `Scf` and `Ccf`. -/

namespace Sys2Proof.Machine

/-- `Scf` (R90). -/
def execScf (s : State) : Host.Outcome State Fault Refusal :=
  .next (s.transact 1 (build0 .scf))

/-- `Op5xHi` (R91). -/
def execOp5xHi (k : BitVec 3) (s : State) : Host.Outcome State Fault Refusal :=
  .next (s.transact 1 (build1 .op5xHi (.imm8 (k.setWidth 8))))

/-- `Bit` (R92). -/
def execBit (k : BitVec 3) (s : State) : Host.Outcome State Fault Refusal :=
  .next (s.transact 1 (build1 .bit (.imm8 (k.setWidth 8))))

/-- `Ccf` (R93). -/
def execCcf (s : State) : Host.Outcome State Fault Refusal :=
  .next (s.transact 1 (build0 .ccf))

/-- `Op6xHi` (R94). -/
def execOp6xHi (k : BitVec 3) (s : State) : Host.Outcome State Fault Refusal :=
  .next (s.transact 1 (build1 .op6xHi (.imm8 (k.setWidth 8))))

end Sys2Proof.Machine
end

