-- ==== Sys2Proof/Machine/LoadStore.lean ====
section
/-! DEFINITION. The load and store instructions (43_load_store.md): families 0xc8 to 0xf8. The block
decodes and renders them and performs no load and no store. -/

namespace Sys2Proof.Machine

/-- `StoreAbs16` (R120): the register, source of the store, in slot 0; the memory in slot 1. -/
def execStoreAbs16 (n : BitVec 3) (addr : Word16) (s : State) : Host.Outcome State Fault Refusal :=
  .next (s.transact 3 (build2 .storeAbs16 (.register n.toNat) (.absoluteMem addr)))

/-- `StoreIndirect` (R121). -/
def execStoreIndirect (n : BitVec 3) (s : State) : Host.Outcome State Fault Refusal :=
  .next (s.transact 1 (build1 .storeIndirect (.indirectMem n.toNat)))

/-- `StoreIndirectOffset` (R122): `offs` unsigned, also when 0. -/
def execStoreIndirectOffset (n : BitVec 3) (offs : Byte) (s : State) :
    Host.Outcome State Fault Refusal :=
  .next (s.transact 2 (build1 .storeIndirectOffset (.indirectMemOffset n.toNat offs)))

/-- `LoadImm8` (R123). -/
def execLoadImm8 (n : BitVec 3) (imm : Byte) (s : State) : Host.Outcome State Fault Refusal :=
  .next (s.transact 2 (build2 .loadImm8 (.register n.toNat) (.imm8 imm)))

/-- `LoadAbs16` (R124). -/
def execLoadAbs16 (n : BitVec 3) (addr : Word16) (s : State) : Host.Outcome State Fault Refusal :=
  .next (s.transact 3 (build2 .loadAbs16 (.register n.toNat) (.absoluteMem addr)))

/-- `LoadIndirect` (R125). -/
def execLoadIndirect (n : BitVec 3) (s : State) : Host.Outcome State Fault Refusal :=
  .next (s.transact 1 (build1 .loadIndirect (.indirectMem n.toNat)))

/-- `LoadIndirectOffset` (R126): the follow-on byte is `offs`, unsigned. -/
def execLoadIndirectOffset (n : BitVec 3) (offs : Byte) (s : State) :
    Host.Outcome State Fault Refusal :=
  .next (s.transact 2 (build1 .loadIndirectOffset (.indirectMemOffset n.toNat offs)))

end Sys2Proof.Machine
end

