-- ==== Sys2Proof/Machine/FamilyOp.lean ====
section
/-! DEFINITION. The open parameter FAMILY_OP (00_scope.md R7, 30_encoding.md R61): which opcode each
of the families 0x00 to 0x50 carries. 0x28 is `Xor` and 0x48 is `Sbc`; the other nine families carry
the other nine names, one each, in an order the spec does not know (92_eei_decisions.md D2). -/

namespace Sys2Proof.Machine

/-- The nine names that the spec does not place, in its listing order (R61). -/
def unplacedOpcodes : List Opcode :=
  [.adc, .or, .and, .add, .rcl, .rcr, .inc, .dec, .movRegToAcc]

/-- The arrangement of a list that has the number `rank`; number 0 is the list itself. -/
def arrange {α : Type} : Nat → List α → List α
  | _, [] => []
  | rank, x :: xs => (arrange (rank / (xs.length + 1)) xs).insertIdx (rank % (xs.length + 1)) x

/-- The place of a family among the nine that are not pinned, in ascending order; `none` for the
two that the source's scenarios pin. -/
def openIndex : RegFamily → Option Nat
  | .f00 => some 0
  | .f08 => some 1
  | .f10 => some 2
  | .f18 => some 3
  | .f20 => some 4
  | .f28 => none
  | .f30 => some 5
  | .f38 => some 6
  | .f40 => some 7
  | .f48 => none
  | .f50 => some 8

/-- The bijection number `rank`: 0x28 to `Xor`, 0x48 to `Sbc` (R61), the other nine families to an
arrangement of the nine unplaced names. Number 0 is REF_FAMILY_OP, the placeholder of D2. -/
def familyOpOf (rank : Nat) (f : RegFamily) : Opcode :=
  match openIndex f with
  | some k => (arrange rank unplacedOpcodes).getD k .adc
  | none => if f = .f28 then .xor else .sbc

/-- FAMILY_OP itself: the bijection whose number is the open constant `Config.familyRank`. -/
def familyOp (f : RegFamily) : Opcode := familyOpOf Config.familyRank f

end Sys2Proof.Machine
end

