-- ==== Sys2Proof/Machine/RegisterForm.lean ====
section
/-! DEFINITION. The register-form instructions (40_register_form.md): the eleven families 0x00 to
0x50, and `MovAccToReg`, `Cmp`, `Push`, `Pop`, `IncW`. One byte each; every `n` from 0 to 7 is
accepted. The meaning of an instruction is its decode transaction: the block gives it no execution
meaning (00_scope.md R4, 92_eei_decisions.md D21). -/

namespace Sys2Proof.Machine

/-- The transaction of a family 0x00 to 0x50 (30_encoding.md R60, R61). -/
def registerFamily (f : RegFamily) (n : BitVec 3) (s : State) : State :=
  s.transact 1 (build1 (familyOp f) (.register n.toNat))

/-- Family 0x00 (R61). -/
def execFamily00 (n : BitVec 3) (s : State) : Host.Outcome State Fault Refusal :=
  .next (registerFamily .f00 n s)

/-- Family 0x08 (R61). -/
def execFamily08 (n : BitVec 3) (s : State) : Host.Outcome State Fault Refusal :=
  .next (registerFamily .f08 n s)

/-- Family 0x10 (R61). -/
def execFamily10 (n : BitVec 3) (s : State) : Host.Outcome State Fault Refusal :=
  .next (registerFamily .f10 n s)

/-- Family 0x18 (R61). -/
def execFamily18 (n : BitVec 3) (s : State) : Host.Outcome State Fault Refusal :=
  .next (registerFamily .f18 n s)

/-- Family 0x20 (R61). -/
def execFamily20 (n : BitVec 3) (s : State) : Host.Outcome State Fault Refusal :=
  .next (registerFamily .f20 n s)

/-- `Xor`, family 0x28 (R73). -/
def execXor (n : BitVec 3) (s : State) : Host.Outcome State Fault Refusal :=
  .next (s.transact 1 (build1 .xor (.register n.toNat)))

/-- Family 0x30 (R61). -/
def execFamily30 (n : BitVec 3) (s : State) : Host.Outcome State Fault Refusal :=
  .next (registerFamily .f30 n s)

/-- Family 0x38 (R61). -/
def execFamily38 (n : BitVec 3) (s : State) : Host.Outcome State Fault Refusal :=
  .next (registerFamily .f38 n s)

/-- Family 0x40 (R61). -/
def execFamily40 (n : BitVec 3) (s : State) : Host.Outcome State Fault Refusal :=
  .next (registerFamily .f40 n s)

/-- `Sbc`, family 0x48 (R75). -/
def execSbc (n : BitVec 3) (s : State) : Host.Outcome State Fault Refusal :=
  .next (s.transact 1 (build1 .sbc (.register n.toNat)))

/-- Family 0x50 (R61). -/
def execFamily50 (n : BitVec 3) (s : State) : Host.Outcome State Fault Refusal :=
  .next (registerFamily .f50 n s)

/-- `MovAccToReg` (R81). -/
def execMovAccToReg (n : BitVec 3) (s : State) : Host.Outcome State Fault Refusal :=
  .next (s.transact 1 (build1 .movAccToReg (.register n.toNat)))

/-- `Cmp` (R82). -/
def execCmp (n : BitVec 3) (s : State) : Host.Outcome State Fault Refusal :=
  .next (s.transact 1 (build1 .cmp (.register n.toNat)))

/-- `Push` (R83). -/
def execPush (n : BitVec 3) (s : State) : Host.Outcome State Fault Refusal :=
  .next (s.transact 1 (build1 .push (.register n.toNat)))

/-- `Pop` (R84). -/
def execPop (n : BitVec 3) (s : State) : Host.Outcome State Fault Refusal :=
  .next (s.transact 1 (build1 .pop (.register n.toNat)))

/-- `IncW` (R85): odd `n` is accepted as it stands. -/
def execIncW (n : BitVec 3) (s : State) : Host.Outcome State Fault Refusal :=
  .next (s.transact 1 (build1 .incW (.registerPair n.toNat)))

end Sys2Proof.Machine
end

