-- ==== Sys2Proof/Machine/Dispatch.lean ====
section
/-! DEFINITION. One arm for each instruction: a direct call of its meaning. -/

namespace Sys2Proof.Machine

def exec (i : Instr) (s : State) : Host.Outcome State Fault Refusal :=
  match i with
  | .family00 n => Sys2Proof.Machine.execFamily00 n s
  | .family08 n => Sys2Proof.Machine.execFamily08 n s
  | .family10 n => Sys2Proof.Machine.execFamily10 n s
  | .family18 n => Sys2Proof.Machine.execFamily18 n s
  | .family20 n => Sys2Proof.Machine.execFamily20 n s
  | .xor n => Sys2Proof.Machine.execXor n s
  | .family30 n => Sys2Proof.Machine.execFamily30 n s
  | .family38 n => Sys2Proof.Machine.execFamily38 n s
  | .family40 n => Sys2Proof.Machine.execFamily40 n s
  | .sbc n => Sys2Proof.Machine.execSbc n s
  | .family50 n => Sys2Proof.Machine.execFamily50 n s
  | .op5xHi k => Sys2Proof.Machine.execOp5xHi k s
  | .scf => Sys2Proof.Machine.execScf s
  | .bit k => Sys2Proof.Machine.execBit k s
  | .op6xHi k => Sys2Proof.Machine.execOp6xHi k s
  | .ccf => Sys2Proof.Machine.execCcf s
  | .movAccToReg n => Sys2Proof.Machine.execMovAccToReg n s
  | .cmp n => Sys2Proof.Machine.execCmp n s
  | .push n => Sys2Proof.Machine.execPush n s
  | .pop n => Sys2Proof.Machine.execPop n s
  | .jnz r => Sys2Proof.Machine.execJnz r s
  | .jnc r => Sys2Proof.Machine.execJnc r s
  | .jccLowGroup c r => Sys2Proof.Machine.execJccLowGroup c r s
  | .jz r => Sys2Proof.Machine.execJz r s
  | .jc r => Sys2Proof.Machine.execJc r s
  | .jccHighGroup c r => Sys2Proof.Machine.execJccHighGroup c r s
  | .invalid op => Sys2Proof.Machine.execInvalid op s
  | .ret => Sys2Proof.Machine.execRet s
  | .iret => Sys2Proof.Machine.execIret s
  | .jmp imm => Sys2Proof.Machine.execJmp imm s
  | .call imm => Sys2Proof.Machine.execCall imm s
  | .incW n => Sys2Proof.Machine.execIncW n s
  | .storeAbs16 n addr => Sys2Proof.Machine.execStoreAbs16 n addr s
  | .storeIndirect n => Sys2Proof.Machine.execStoreIndirect n s
  | .storeIndirectOffset n offs => Sys2Proof.Machine.execStoreIndirectOffset n offs s
  | .loadImm8 n imm => Sys2Proof.Machine.execLoadImm8 n imm s
  | .loadAbs16 n addr => Sys2Proof.Machine.execLoadAbs16 n addr s
  | .loadIndirect n => Sys2Proof.Machine.execLoadIndirect n s
  | .loadIndirectOffset n offs => Sys2Proof.Machine.execLoadIndirectOffset n offs s

end Sys2Proof.Machine
end

