-- ==== Sys2Proof/Machine/Fetch.lean ====
section
/-! DEFINITION. What the step does around the meaning of an instruction: looking at the bytes at the
cursor, and the transaction of a window that ends inside an instruction. -/

namespace Sys2Proof.Machine

/-- The instruction that the bytes at the cursor decode to, or `truncated` (30_encoding.md R60). -/
def State.fetch (s : State) : Except DecodeError Instr :=
  match decode s.ahead with
  | .ok (i, _) => .ok i
  | .error e => .error e

/-- How many bytes the transaction at the cursor asks for: one, and what that byte asks for
(30_encoding.md R59). -/
def State.wanted (s : State) : Nat :=
  match s.stream.read s.pos with
  | some op => 1 + followOn op
  | none => 1

/-- The transaction of a window that ends before its instruction does (60_exceptions.md R191, R197):
the bytes that are there are read, then the error `Truncated` is taken. -/
def State.transactTruncated (s : State) : State :=
  (s.markCursor.consume s.wanted).1.raise .truncated

/-- The stream with a run of bytes stored from one position on. -/
def Memory.writeBytes (m : Memory) : Nat → List Byte → Memory
  | _, [] => m
  | a, b :: rest => Memory.writeBytes (m.write a b) (a + 1) rest

end Sys2Proof.Machine
end

