-- ==== Sys2Proof/Machine/Step.lean ====
section
/-! DEFINITION. One step is one decode transaction, an indivisible step as its caller sees it
(70_reset_and_hazards.md R219), together with the renderer's text of what it decoded. -/

namespace Sys2Proof.Machine

/-- One decode transaction at the cursor: the instruction there, or `Truncated`. -/
def step (s : State) : Host.Outcome State Fault Refusal :=
  match s.fetch with
  | .ok i => exec i s
  | .error _ => .next s.transactTruncated

/-- The state with an instruction's bytes stored at the cursor, where the next step reads them. -/
def State.withFetchWord (s : State) (nbits w : Nat) : State :=
  { s with stream := s.stream.writeBytes s.pos (tableBytes nbits w) }

end Sys2Proof.Machine
end

