-- ==== Sys2Proof/Machine/Collaborator.lean ====
section
/-! DEFINITION. What happens to the state from outside between two transactions: the collaborator owns
the stream and the cursor (10_state.md R20, 20_memory.md R42, 70_reset_and_hazards.md R214), and a
reset may arrive (10_state.md R27, 70_reset_and_hazards.md R210). No step does any of this. -/

namespace Sys2Proof.Machine

/-- A new cursor over a whole byte sequence, at its first byte (20_memory.md R44). -/
def State.onBytes (bytes : List Byte) : State :=
  { State.reset with stream := Memory.writeBytes [] 0 bytes }

/-- The collaborator moves its own cursor: the way to retry or skip after an error (R214). What that does
to `mark_pos` the spec does not say; that the mark stays is this model's choice (DESIGN CHOICE, log entry
24). -/
def State.seek (s : State) (p : Nat) : State := { s with pos := p }

/-- The collaborator changes a byte of the stream between two transactions; the next transaction sees
it (R42). -/
def State.patch (s : State) (a : Nat) (b : Byte) : State := { s with stream := s.stream.write a b }

/-- A reset while no transaction runs: the block has no state to reset, and no output is there to read
until a transaction succeeds (10_state.md R27). Where the collaborator's cursor and mark, and what its
stream, are after such a reset the spec leaves open (R27); that all three stay as they were is this model's
choice (DESIGN CHOICE, unsafe, log entry 23). `State.reset` is the machine's first state and not the outcome
of this act. -/
def State.resetIdle (s : State) : State := { s with result := none, text := none }

/-- A reset that arrives when the transaction at the cursor has made `k` of its reads abandons it: neither
an Instruction nor an error results (10_state.md R27, 92_eei_decisions.md D13). The transaction makes no
read it does not need (20_memory.md R34), so a larger `k` is as many reads as it makes. Where the cursor
and the mark are after such a reset the spec leaves open (R27); that the bytes read stay consumed and the
mark stays where the transaction put it is this model's choice (DESIGN CHOICE, log entry 7). -/
def State.resetDuring (s : State) (k : Nat) : State :=
  (s.markCursor.consume (min k s.wanted)).1.resetIdle

end Sys2Proof.Machine
end

