-- ==== Sys2Proof/Machine/Transaction.lean ====
section
/-! DEFINITION. `decode(cur)` as 30_encoding.md R60 writes it, read by read, over any FAMILY_OP; the
entry point `decode`, which puts its result out; and `decode_slice` (20_memory.md R44). The step
(Machine/Step.lean) goes by the encoded instruction instead; that the two agree is a statement. -/

namespace Sys2Proof.Machine

/-- `b <- cur.next() or raise Truncated`, then the rest of the algorithm. -/
def State.withByte (s : State) (rest : Byte → State → State × DecodeResult) : State × DecodeResult :=
  match s.nextByte with
  | some (b, t) => rest b t
  | none => (s, .error .truncated)

/-- Step 4 of R60: `ins.byte_length <- cur.offset()`, `return ins`. -/
def State.finish (s : State) (ins : Instruction) : State × DecodeResult :=
  (s, .instruction { ins with byteLength := s.offset })

/-- The case of R60 for families 0x90 and 0x98: the displacement is read before `low` is examined. -/
def State.finishBranch (s : State) (low : Byte) (opc0 opc1 group : Opcode) : State × DecodeResult :=
  s.withByte fun b1 s =>
    let br := Operand.relativeBranch (signed8 b1)
    if low = 0#8 then s.finish (build1 opc0 br)
    else if low = 1#8 then s.finish (build1 opc1 br)
    else s.finish (build2 group (.imm8 low) br)

/-- `b1 <- cur.next()`, `b2 <- cur.next()`, then the record made of `b1 | (b2 << 8)`. -/
def State.finishWide (s : State) (make : Word16 → Instruction) : State × DecodeResult :=
  s.withByte fun b1 s => s.withByte fun b2 s =>
    s.finish (make (b1.setWidth 16 ||| b2.setWidth 16 <<< 8))

/-- `b1 <- cur.next()`, then the record made of it. -/
def State.finishByte (s : State) (make : Byte → Instruction) : State × DecodeResult :=
  s.withByte fun b1 s => s.finish (make b1)

/-- Steps 2 to 4 of R60, after the opcode byte has been read. -/
def State.dispatchR60 (fam : RegFamily → Opcode) (op : Byte) (s : State) : State × DecodeResult :=
  let low := op &&& 0x07#8
  let n := low.toNat
  match op &&& 0xf8#8 with
  | 0x00#8 => s.finish (build1 (fam .f00) (.register n))
  | 0x08#8 => s.finish (build1 (fam .f08) (.register n))
  | 0x10#8 => s.finish (build1 (fam .f10) (.register n))
  | 0x18#8 => s.finish (build1 (fam .f18) (.register n))
  | 0x20#8 => s.finish (build1 (fam .f20) (.register n))
  | 0x28#8 => s.finish (build1 (fam .f28) (.register n))
  | 0x30#8 => s.finish (build1 (fam .f30) (.register n))
  | 0x38#8 => s.finish (build1 (fam .f38) (.register n))
  | 0x40#8 => s.finish (build1 (fam .f40) (.register n))
  | 0x48#8 => s.finish (build1 (fam .f48) (.register n))
  | 0x50#8 => s.finish (build1 (fam .f50) (.register n))
  | 0x58#8 => if op = 0x59#8 then s.finish (build0 .scf) else s.finish (build1 .op5xHi (.imm8 low))
  | 0x60#8 => s.finish (build1 .bit (.imm8 low))
  | 0x68#8 => if op = 0x69#8 then s.finish (build0 .ccf) else s.finish (build1 .op6xHi (.imm8 low))
  | 0x70#8 => s.finish (build1 .movAccToReg (.register n))
  | 0x78#8 => s.finish (build1 .cmp (.register n))
  | 0x80#8 => s.finish (build1 .push (.register n))
  | 0x88#8 => s.finish (build1 .pop (.register n))
  | 0x90#8 => s.finishBranch low .jnz .jnc .jccLowGroup
  | 0x98#8 => s.finishBranch low .jz .jc .jccHighGroup
  | 0xb8#8 =>
    if op = 0xb9#8 then s.finish (build0 .ret)
    else if op = 0xba#8 then s.finish (build0 .iret)
    else if op = 0xbc#8 then s.finishWide fun v => build1 .jmp (.imm16 v)
    else if op = 0xbf#8 then s.finishWide fun v => build1 .call (.imm16 v)
    else (s, .error .invalidOpcode)
  | 0xc0#8 => s.finish (build1 .incW (.registerPair n))
  | 0xc8#8 => s.finishWide fun v => build2 .storeAbs16 (.register n) (.absoluteMem v)
  | 0xd0#8 => s.finish (build1 .storeIndirect (.indirectMem n))
  | 0xd8#8 => s.finishByte fun b => build1 .storeIndirectOffset (.indirectMemOffset n b)
  | 0xe0#8 => s.finishByte fun b => build2 .loadImm8 (.register n) (.imm8 b)
  | 0xe8#8 => s.finishWide fun v => build2 .loadAbs16 (.register n) (.absoluteMem v)
  | 0xf0#8 => s.finish (build1 .loadIndirect (.indirectMem n))
  | 0xf8#8 => s.finishByte fun b => build1 .loadIndirectOffset (.indirectMemOffset n b)
  | _ => (s, .error .invalidOpcode)

/-- `decode(cur)` (R60): the cursor afterwards and the result. -/
def State.decodeR60 (fam : RegFamily → Opcode) (s : State) : State × DecodeResult :=
  s.markCursor.withByte fun op s => s.dispatchR60 fam op

/-- One call of `decode`: its result put out, with the renderer's text of an Instruction. -/
def State.decodeCall (s : State) : State :=
  match s.decodeR60 familyOp with
  | (t, .instruction ins) => { t with result := some (.instruction ins), text := render ins }
  | (t, .error e) => { t with result := some (.error e), text := none }

end Sys2Proof.Machine
end

