-- ==== Sys2Proof/Machine/Calls.lean ====
section
/-! DEFINITION. The calls a user of the block can make beside a decode on a cursor, with the requests
that the spec tells a model to refuse (93_implementation_defined.md U1, U2, U9, U12). -/

namespace Sys2Proof.Machine

/-- `decode_slice(bytes)` (20_memory.md R44): one instruction from the start of a byte sequence. -/
def decodeSlice (bytes : List Byte) : DecodeResult :=
  ((State.onBytes bytes).decodeR60 familyOp).2

/-- `render(ins)` as a call (45_renderer.md R179): refused for an Instruction out of contract. -/
def callRender (ins : Instruction) : Host.Outcome Text Fault Refusal :=
  match render ins with
  | some text => .next text
  | none => .refused .outOfContract

/-- Reading the Instruction that the last transaction put out (60_exceptions.md R195,
70_reset_and_hazards.md R213): refused when there is none. After an error that is U1 and D20; where there has
been no transaction, or a reset took the output away, it is deduced from R27's 'unspecified' (log entry 20). -/
def State.takeInstruction (s : State) : Host.Outcome Instruction Fault Refusal :=
  match s.result with
  | some (.instruction ins) => .next ins
  | _ => .refused .noInstruction

/-- A request to execute a decoded instruction is refused: its effect on the hardware is unknown
(00_scope.md R4, 92_eei_decisions.md D21). -/
def callExecute (_ins : Instruction) (_s : State) : Host.Outcome State Fault Refusal :=
  .refused .executionUnknown

/-- Two transactions at the same time, on the cursors named `c1` and `c2` (20_memory.md R43): on
independent cursors each is as if it were alone; on one cursor the request is refused. -/
def decodeConcurrently (c1 c2 : Nat) (s1 s2 : State) : Host.Outcome (State × State) Fault Refusal :=
  if c1 = c2 then .refused .sharedCursor else .next (s1.decodeCall, s2.decodeCall)

end Sys2Proof.Machine
end

