-- ==== Sys2Proof/Machine/Caller.lean ====
section
/-! DEFINITION. What a caller that knows the load address, and the registers, computes from a decoded
Instruction: branch targets (42_control_transfer.md R110, R111) and the addresses the operand forms
name (43_load_store.md R127). The block computes none of this. -/

namespace Sys2Proof.Machine

/-- The address of the opcode byte at a stream position: LOAD_ADDRESS plus the position (R110). That this
sum wraps modulo 2^16 when it passes 0xffff the spec does not say (R22, D11 and R110 wrap the addresses
after it only): DESIGN CHOICE, unsafe, log entry 22. -/
def instructionAddress (position : Nat) : Word16 := Config.loadAddress + BitVec.ofNat 16 position

/-- `next = A + byte_length`, in 16 bits (R110). -/
def nextAddress (a : Word16) (ins : Instruction) : Word16 := a + BitVec.ofNat 16 ins.byteLength

/-- `target = (next + sext_16(rel)) mod 2^16` (R110, 92_eei_decisions.md D11). -/
def relativeTarget (next : Word16) (rel : Int) : Word16 := next + BitVec.ofInt 16 rel

/-- The target one operand gives: a displacement by R110, a 16-bit immediate unchanged (R111,
92_eei_decisions.md D25), any other operand none. -/
def operandTarget (next : Word16) : Option Operand → Option Word16
  | some (.relativeBranch rel) => some (relativeTarget next rel)
  | some (.imm16 imm) => some imm
  | _ => none

/-- The target of an instruction whose opcode byte is at address `a`; `none` if it names none. -/
def transferTarget (a : Word16) (ins : Instruction) : Option Word16 :=
  (operandTarget (nextAddress a ins) (operandOf ins 0)).or
    (operandTarget (nextAddress a ins) (operandOf ins 1))

/-- The 16-bit value of the pair `rN`, `rN+1` (R127); which of the two is the high byte is the open
parameter PAIR_HIGH_FIRST. -/
def pairValue (rN rN1 : Byte) : Word16 := if Config.pairHighFirst then rN ++ rN1 else rN1 ++ rN

/-- The address `pair + offs`, `offs` zero-extended (R127); free where the exact sum leaves 16 bits. -/
def offsetAddress (pair : Word16) (offs : Byte) : Word16 :=
  let sum := pair.toNat + offs.toNat
  if sum < 2 ^ 16 then BitVec.ofNat 16 sum else Config.offsetSumBeyondRange pair offs

/-- The memory address an operand names (R127), given what the caller holds each register to contain;
`none` for an operand that names no memory. What `r8` is, the caller must say too. -/
def effectiveAddress (reg : Nat → Byte) : Operand → Option Word16
  | .absoluteMem addr => some addr
  | .indirectMem n => some (pairValue (reg n) (reg (n + 1)))
  | .indirectMemOffset n offs => some (offsetAddress (pairValue (reg n) (reg (n + 1))) offs)
  | _ => none

end Sys2Proof.Machine
end

