-- ==== Sys2Proof/Machine/Sweep.lean ====
section
/-! DEFINITION. The linear sweep (70_reset_and_hazards.md R220): the spec's own harness, which calls
`decode` again and again on one cursor and follows no branch. -/

namespace Sys2Proof.Machine

/-- How a sweep ends (R220). -/
inductive SweepEnd where
  /-- (a) The cursor is at the end of its window when a transaction would begin. -/
  | cleanEnd
  /-- (b) The window ends inside an instruction. -/
  | truncated
  /-- (c) A byte begins no instruction; the sweep does not skip it. -/
  | invalidOpcode
  /-- The number of transactions allowed was used up; `sweepAll` allows enough of them. -/
  | outOfFuel
deriving DecidableEq, Repr

/-- One line of a sweep: where the instruction stands, what it is, its text, and the target a caller
computes for it (95_test_vectors.md, part 3). The address wraps as `instructionAddress` does (log entry
22). -/
structure SweepRow where
  position : Nat
  address : Word16
  ins : Instruction
  text : Option Text
  target : Option Word16
deriving DecidableEq, Repr

/-- The end state of a sweep. -/
structure SweepReport where
  rows : List SweepRow
  ending : SweepEnd
  final : State
deriving DecidableEq, Repr

/-- At most `fuel` transactions from the state given. -/
def State.sweep : Nat → State → SweepReport
  | 0, s => ⟨[], .outOfFuel, s⟩
  | fuel + 1, s =>
    match s.stream.read s.pos with
    | none => ⟨[], .cleanEnd, s⟩
    | some _ =>
      match s.decodeCall.result with
      | some (.instruction ins) =>
        let a := instructionAddress s.pos
        let report := State.sweep fuel s.decodeCall
        { report with
          rows := ⟨s.pos, a, ins, s.decodeCall.text, transferTarget a ins⟩ :: report.rows }
      | some (.error .invalidOpcode) => ⟨[], .invalidOpcode, s.decodeCall⟩
      | _ => ⟨[], .truncated, s.decodeCall⟩

/-- The sweep to its end: every transaction consumes a byte, so one more than there are bytes is
enough. -/
def State.sweepAll (s : State) : SweepReport := s.sweep (s.stream.length + 1)

end Sys2Proof.Machine
end

