-- ==== Sys2Proof/Safety.lean ====
section
/-! DEFINITION. The terms claims are stated in: the two ways a transaction leaves the state, what a
rule of the files 40 to 43 says of its instruction, and the invariant every step keeps. -/

namespace Sys2Proof.Machine

/-- The state after a transaction that gives the record `ins` with its text: the mark at the first
byte, the cursor `byte_length` bytes past it, the stream as it was (60_exceptions.md R197). -/
def State.afterInstruction (s : State) (ins : Instruction) (text : Text) : State :=
  { stream := s.stream
    pos := s.pos + ins.byteLength
    mark := s.pos
    result := some (.instruction ins)
    text := some text }

/-- The state after a transaction that ends in the error `e` with `consumed` bytes read: no Instruction,
no text, the stream as it was (60_exceptions.md R195, R197). -/
def State.afterError (s : State) (consumed : Nat) (e : DecodeError) : State :=
  { stream := s.stream
    pos := s.pos + consumed
    mark := s.pos
    result := some (.error e)
    text := none }

/-- How many bytes, at most `k`, can be read at the cursor. -/
def State.available (s : State) (k : Nat) : Nat := (s.stream.peek s.pos k).length

/-- What a rule of the files 40 to 43 says of the instruction `i` with the bytes `bytes`, the record
`ins` and the text `text`: these bytes are its encoding, and decode to it whatever follows them; run
where at least so many bytes can be read, it answers the next state that holds the record and the text,
with the mark at its first byte, the cursor behind its last byte and the stream as it was; run in a
shorter window, it answers a next state whose result is `Truncated`, with no Instruction and no text,
and the stream as it was. (Where the cursor then stands is in `Obligations.ShortWindowTakesTruncated`.) -/
def MeetsRule (i : Instr) (bytes : List Byte) (ins : Instruction) (text : Text) : Prop :=
  encode i = bytes ∧ ins.byteLength = bytes.length ∧
  (∀ rest, decode (bytes ++ rest) = .ok (i, rest)) ∧
  (∀ s : State, s.available bytes.length = bytes.length →
    exec i s = .next (s.afterInstruction ins text)) ∧
  (∀ s : State, s.available bytes.length < bytes.length →
    ∃ t, exec i s = .next t ∧ t.result = some (.error .truncated) ∧ t.text = none ∧
      t.stream = s.stream)

/-- The encoded instruction of a family 0x00 to 0x50 (30_encoding.md R61). -/
def familyInstr : RegFamily → BitVec 3 → Instr
  | .f00, n => .family00 n
  | .f08, n => .family08 n
  | .f10, n => .family10 n
  | .f18, n => .family18 n
  | .f20, n => .family20 n
  | .f28, n => .xor n
  | .f30, n => .family30 n
  | .f38, n => .family38 n
  | .f40, n => .family40 n
  | .f48, n => .sbc n
  | .f50, n => .family50 n

/-- The value of a family 0x00 to 0x50, its opcode byte for `n = 0` (30_encoding.md R47). -/
def familyByte : RegFamily → Byte
  | .f00 => 0x00#8
  | .f08 => 0x08#8
  | .f10 => 0x10#8
  | .f18 => 0x18#8
  | .f20 => 0x20#8
  | .f28 => 0x28#8
  | .f30 => 0x30#8
  | .f38 => 0x38#8
  | .f40 => 0x40#8
  | .f48 => 0x48#8
  | .f50 => 0x50#8

/-- What the outputs of the last transaction say of one another and of the cursor. -/
def State.outputSound (s : State) : Prop :=
  match s.result with
  | none => s.text = none
  | some (.instruction ins) =>
    isValid ins = true ∧ ins.byteLength = s.offset ∧ Config.minLen ≤ ins.byteLength ∧
      ins.byteLength ≤ Config.maxLen ∧ s.text = render ins
  | some (.error .truncated) => s.text = none ∧ s.offset ≤ 2 ∧ s.stream.read s.pos = none
  | some (.error .invalidOpcode) => s.text = none ∧ s.offset = 1

/-- The invariant: the stream has its canonical form, the mark is not past the cursor, and the outputs
are sound. -/
def State.Inv (s : State) : Prop := s.stream.wf ∧ s.mark ≤ s.pos ∧ s.outputSound

/-- Two states whose windows agree on the next `k` bytes (each of them having those bytes). -/
def agreeOnNext (k : Nat) (s t : State) : Prop :=
  ∀ j, j < k → s.stream.read (s.pos + j) = t.stream.read (t.pos + j)

end Sys2Proof.Machine
end

