-- ==== Sys2Proof/Certificates/Slice0/Obligations.lean ====
section
/-! DEFINITION. The statements for the provers. The terms they are written in (`MeetsRule`,
`State.afterInstruction`, `State.afterError`, `State.available`, `State.Inv`, `agreeOnNext`) are in
Sys2Proof/Safety.lean. -/

open Sys2Proof Sys2Proof.Machine

/-! ### Encoding -/

/-- Decoding the bytes of a well-formed instruction gives it back, whatever follows (R46, R48). -/
def Obligations.DecodeOfEncodeIsTheInstruction : Prop :=
  ∀ (i : Instr) (rest : List Byte), i.wellFormed = true → decode (encode i ++ rest) = .ok (i, rest)

/-- What the decoder reads is well-formed, and its bytes are the ones that were read (R48, R58). -/
def Obligations.EncodeOfDecodeIsTheBytes : Prop :=
  ∀ (bs : List Byte) (i : Instr) (rest : List Byte),
    decode bs = .ok (i, rest) → i.wellFormed = true ∧ encode i ++ rest = bs

/-- A few instruction words written out from the encodings of the spec decode to what they stand for. -/
def Obligations.WrittenWordsDecode : Prop :=
  decode [0b00101001#8] = .ok (.xor 1#3, []) ∧
  decode [0b01011001#8] = .ok (.scf, []) ∧
  decode [0b01011010#8] = .ok (.op5xHi 2#3, []) ∧
  decode [0b10010000#8, 0x50#8] = .ok (.jnz 0x50#8, []) ∧
  decode [0b10010011#8, 0x10#8] = .ok (.jccLowGroup 3#3 0x10#8, []) ∧
  decode [0b10111100#8, 0x8a#8, 0xd9#8] = .ok (.jmp 0xd98a#16, []) ∧
  decode [0b11001001#8, 0xf2#8, 0xed#8] = .ok (.storeAbs16 1#3 0xedf2#16, []) ∧
  decode [0b11100100#8, 0x0e#8] = .ok (.loadImm8 4#3 0x0e#8, []) ∧
  decode [0b10111101#8] = .ok (.invalid 0xbd#8, [])

/-- Every opcode byte selects exactly one of the 50 rows of the opcode table, and the decoder reads from
it, whatever follows, an instruction of that row's mnemonic and length (R63). -/
def Obligations.DecoderAgreesWithTheOpcodeTable : Prop :=
  ∀ op : Byte, ∃ row, opcodeTable.filter (fun r => r.selects op) = [row] ∧
    ∀ b1 b2 : Byte, ∃ i rest, decode [op, b1, b2] = .ok (i, rest) ∧
      i.mnemonic = row.mnemonic ∧ i.length = row.length ∧ rest.length + row.length = 3

/-- The length of an instruction by its opcode byte, interval by interval, and no Instruction from an
invalid byte (R45; a table the spec derives from R48). -/
def Obligations.LengthFollowsFromTheOpcodeByte : Prop :=
  ∀ (s t : State) (op : Byte), s.stream.read s.pos = some op → step s = .next t →
    (∀ ins, t.result = some (.instruction ins) → ins.byteLength =
      (if op ≤ 0x8f#8 then 1 else if op ≤ 0x9f#8 then 2
       else if op = 0xb9#8 ∨ op = 0xba#8 then 1 else if op = 0xbc#8 ∨ op = 0xbf#8 then 3
       else if op ≤ 0xc7#8 then 1 else if op ≤ 0xcf#8 then 3 else if op ≤ 0xd7#8 then 1
       else if op ≤ 0xe7#8 then 2 else if op ≤ 0xef#8 then 3 else if op ≤ 0xf7#8 then 1 else 2)) ∧
    (0xa0#8 ≤ op ∧ op ≤ 0xb8#8 ∨ op ∈ [0xbb#8, 0xbd#8, 0xbe#8] →
      ∀ ins, t.result ≠ some (.instruction ins))

/-- Of the 256 first bytes, each followed by any two bytes, the decoder reads an instruction from 228 and
an invalid byte from 28; of the 32 families 29 have a byte that begins an instruction (R55); 170, 40 and
18 of the 228 are instructions of 1, 2 and 3 bytes, by the bytes the decoder leaves (R45). -/
def Obligations.CountsOfTheOpcodeSpace : Prop :=
  ∀ b1 b2 : Byte,
    let read := fun n : Nat => decode [BitVec.ofNat 8 n, b1, b2]
    let decodes := fun n : Nat =>
      match read n with
      | .ok (.invalid _, _) => false
      | .ok _ => true
      | .error _ => false
    let readsInvalid := fun n : Nat =>
      match read n with
      | .ok (.invalid _, rest) => rest == [b1, b2]
      | .ok _ => false
      | .error _ => false
    let hasLength := fun (k n : Nat) =>
      match read n with
      | .ok (_, rest) => rest.length + k == 3
      | .error _ => false
    let valid := (List.range 256).filter decodes
    valid.length = 228 ∧ ((List.range 256).filter readsInvalid).length = 28 ∧
      ((List.range 32).filter fun f => (List.range 8).any fun l => decodes (8 * f + l)).length = 29 ∧
      (valid.filter (hasLength 1)).length = 170 ∧ (valid.filter (hasLength 2)).length = 40 ∧
      (valid.filter (hasLength 3)).length = 18

/-- The families whose opcode depends on the low bits, and not only on the family, are exactly five; inside
them the exact values have the opcodes of R49; in every other populated family the low bits are a field,
each value of which gives another instruction. -/
def Obligations.IrregularFamiliesAreFive : Prop :=
  (∀ f : Fin 32,
    (∃ l : Fin 8, (assemble (BitVec.ofNat 8 (8 * f.val + l.val)) 0#8 0#8).mnemonic ≠
      (assemble (BitVec.ofNat 8 (8 * f.val)) 0#8 0#8).mnemonic) ↔
    8 * f.val ∈ [0x58, 0x68, 0x90, 0x98, 0xb8]) ∧
  (∀ b1 b2 : Byte, ∀ l : BitVec 3,
    assemble (0x58#8 ||| l.setWidth 8) b1 b2 = (if l = 1#3 then .scf else .op5xHi l) ∧
    assemble (0x68#8 ||| l.setWidth 8) b1 b2 = (if l = 1#3 then .ccf else .op6xHi l) ∧
    assemble (0x90#8 ||| l.setWidth 8) b1 b2 =
      (if l = 0#3 then .jnz b1 else if l = 1#3 then .jnc b1 else .jccLowGroup l b1) ∧
    assemble (0x98#8 ||| l.setWidth 8) b1 b2 =
      (if l = 0#3 then .jz b1 else if l = 1#3 then .jc b1 else .jccHighGroup l b1) ∧
    assemble (0xb8#8 ||| l.setWidth 8) b1 b2 =
      (if l = 1#3 then .ret else if l = 2#3 then .iret else if l = 4#3 then .jmp (value16 b1 b2)
       else if l = 7#3 then .call (value16 b1 b2) else .invalid (0xb8#8 ||| l.setWidth 8))) ∧
  (∀ f : Fin 32, 8 * f.val ∉ [0x58, 0x68, 0x90, 0x98, 0xb8, 0xa0, 0xa8, 0xb0] →
    ∀ l m : Fin 8, assemble (BitVec.ofNat 8 (8 * f.val + l.val)) 0#8 0#8 =
      assemble (BitVec.ofNat 8 (8 * f.val + m.val)) 0#8 0#8 → l = m)

/-- The 16-bit value is low byte first (R37), and a displacement byte is read as 8-bit two's complement (R8;
general knowledge and the spec's decision D31). -/
def Obligations.FollowOnBytesAsNumbers : Prop :=
  (∀ b1 b2 : Byte, (value16 b1 b2).toNat = b1.toNat + 256 * b2.toNat) ∧
  (∀ b : Byte, signed8 b = if b.toNat < 128 then (b.toNat : Int) else (b.toNat : Int) - 256) ∧
  (∀ b : Byte, -128 ≤ signed8 b ∧ signed8 b ≤ 127 ∧ BitVec.ofInt 8 (signed8 b) = b)

/-- The cursor's three operations (R31 to R33): `mark` records the position and reads no byte; `next` gives
the byte at the position and moves on by one, or fails where the stream has no byte; `offset` is the
number of bytes since the mark. -/
def Obligations.CursorOperations : Prop :=
  (∀ s : State, s.markCursor = { s with mark := s.pos } ∧ s.markCursor.offset = 0) ∧
  (∀ (s : State) (b : Byte), s.stream.read s.pos = some b →
    ∃ t, s.nextByte = some (b, t) ∧ t = { s with pos := s.pos + 1 } ∧
      (s.mark ≤ s.pos → t.offset = s.offset + 1)) ∧
  (∀ s : State, s.stream.read s.pos = none → s.nextByte = none)

/-! ### The parameter FAMILY_OP -/

/-- FAMILY_OP is a bijection from the eleven families onto the eleven names, with 0x28 `Xor` and 0x48 `Sbc`
(R7, R61; that it is a bijection is the spec's decision D2). -/
def Obligations.FamilyOpIsAPinnedBijection : Prop :=
  familyOp .f28 = .xor ∧ familyOp .f48 = .sbc ∧
  (∀ f g, familyOp f = familyOp g → f = g) ∧
  (∀ opc, opc ∈ [Opcode.adc, .or, .and, .xor, .add, .sbc, .rcl, .rcr, .inc, .dec, .movRegToAcc] ↔
    ∃ f, familyOp f = opc)

/-- Every bijection that R7 allows is the one of some number, so that the open constant shuts none out
(92_eei_decisions.md D2). -/
def Obligations.EveryAllowedFamilyOpHasANumber : Prop :=
  ∀ g : RegFamily → Opcode, g .f28 = .xor → g .f48 = .sbc → (∀ f h, g f = g h → f = h) →
    (∀ f, g f ∈ [Opcode.adc, .or, .and, .xor, .add, .sbc, .rcl, .rcr, .inc, .dec, .movRegToAcc]) →
    ∃ rank, ∀ f, familyOpOf rank f = g f

/-! ### The rules of the instructions: encoding, record, text, completion, `Truncated`, frame -/

/-- The eleven families 0x00 to 0x50 (R61), whichever bijection FAMILY_OP is: one byte, the single operand
`Register{n}`, the opcode FAMILY_OP gives and that opcode's template. FAMILY_OP is the open constant of log
entry 1. The constructors are `family00`, `family08`, `family10`, `family18`, `family20`, `xor`, `family30`,
`family38`, `family40`, `sbc`, `family50` (`familyInstr`). -/
def Obligations.OpenFamiliesMeetTheirRule : Prop :=
  ∀ (f : RegFamily) (n : BitVec 3),
    MeetsRule (familyInstr f n) [familyByte f ||| n.setWidth 8]
      ⟨familyOp f, .register n.toNat, .empty, 1, 1⟩ (template (familyOp f) (.register n.toNat) .empty)

/-- Each of the eleven register-form names has exactly one family, whose bytes are that opcode on
`Register{n}` with the text its rule gives (R70 to R80; one family per name is the spec's decision D2, the
texts but for `Xor` and `Sbc` are its decision D9). -/
def Obligations.ElevenRegisterFormsMeetTheirRules : Prop :=
  ∀ form ∈ [(Opcode.adc, "adc r0, "), (.or, "r0 |= "), (.and, "r0 &= "), (.xor, "r0 ^= "),
      (.add, "r0 += "), (.sbc, "sbc r0, "), (.rcl, "rcl "), (.rcr, "rcr "), (.inc, "inc "),
      (.dec, "dec "), (.movRegToAcc, "r0 <- ")],
    ∃ f : RegFamily, familyOp f = form.1 ∧ (∀ g, familyOp g = form.1 → g = f) ∧
      ∀ n : BitVec 3, MeetsRule (familyInstr f n) [familyByte f ||| n.setWidth 8]
        ⟨form.1, .register n.toNat, .empty, 1, 1⟩ (lit form.2 ++ lit "r" ++ decimal n.toNat)

/-- `Xor` is family 0x28 and `Sbc` family 0x48 (R73, R75). -/
def Obligations.XorAndSbcMeetTheirRules : Prop :=
  ∀ n : BitVec 3,
    MeetsRule (.xor n) [0b00101000#8 ||| n.setWidth 8]
      ⟨.xor, .register n.toNat, .empty, 1, 1⟩ (lit "r0 ^= r" ++ decimal n.toNat) ∧
    MeetsRule (.sbc n) [0b01001000#8 ||| n.setWidth 8]
      ⟨.sbc, .register n.toNat, .empty, 1, 1⟩ (lit "sbc r0, r" ++ decimal n.toNat)

/-- `Push` is family 0x80 (R83). -/
def Obligations.PushMeetsItsRule : Prop :=
  ∀ n : BitVec 3, MeetsRule (.push n) [0b10000000#8 ||| n.setWidth 8]
    ⟨.push, .register n.toNat, .empty, 1, 1⟩ (lit "push r" ++ decimal n.toNat)

/-- `MovAccToReg`, `Cmp`, `Pop`, `IncW` (R81, R82, R84, R85); the texts of the first three are the spec's
decision D9, the pair `r7:r8` its decision D7. -/
def Obligations.OtherRegisterFormsMeetTheirRules : Prop :=
  ∀ n : BitVec 3,
    MeetsRule (.movAccToReg n) [0b01110000#8 ||| n.setWidth 8]
      ⟨.movAccToReg, .register n.toNat, .empty, 1, 1⟩ (lit "r" ++ decimal n.toNat ++ lit " <- r0") ∧
    MeetsRule (.cmp n) [0b01111000#8 ||| n.setWidth 8]
      ⟨.cmp, .register n.toNat, .empty, 1, 1⟩ (lit "cmp r0, r" ++ decimal n.toNat) ∧
    MeetsRule (.pop n) [0b10001000#8 ||| n.setWidth 8]
      ⟨.pop, .register n.toNat, .empty, 1, 1⟩ (lit "pop r" ++ decimal n.toNat) ∧
    MeetsRule (.incW n) [0b11000000#8 ||| n.setWidth 8]
      ⟨.incW, .registerPair n.toNat, .empty, 1, 1⟩
      (lit "incw r" ++ decimal n.toNat ++ lit ":r" ++ decimal (n.toNat + 1))

/-- `Scf`, `Ccf` and `Op5xHi` (R90, R91, R93): the value 1 of the selector is not `Op5xHi`, its byte is `Scf`. -/
def Obligations.ScfCcfAndOp5xHiMeetTheirRules : Prop :=
  MeetsRule .scf [0b01011001#8] ⟨.scf, .empty, .empty, 0, 1⟩ (lit "scf") ∧
  MeetsRule .ccf [0b01101001#8] ⟨.ccf, .empty, .empty, 0, 1⟩ (lit "ccf") ∧
  (∀ k : BitVec 3, k ≠ 1#3 → MeetsRule (.op5xHi k) [0b01011000#8 ||| k.setWidth 8]
    ⟨.op5xHi, .imm8 (k.setWidth 8), .empty, 1, 1⟩ (lit "op5xhi 0x" ++ hexPadded 2 k.toNat))

/-- `Bit` and `Op6xHi` (R92, R94), whose texts are the spec's decision D9; the byte of selector 1 of the
second is `Ccf`. -/
def Obligations.BitAndOp6xHiMeetTheirRules : Prop :=
  (∀ k : BitVec 3, MeetsRule (.bit k) [0b01100000#8 ||| k.setWidth 8]
    ⟨.bit, .imm8 (k.setWidth 8), .empty, 1, 1⟩ (lit "bit 0x" ++ hexPadded 2 k.toNat)) ∧
  (∀ k : BitVec 3, k ≠ 1#3 → MeetsRule (.op6xHi k) [0b01101000#8 ||| k.setWidth 8]
    ⟨.op6xHi, .imm8 (k.setWidth 8), .empty, 1, 1⟩ (lit "op6xhi 0x" ++ hexPadded 2 k.toNat))

/-- `Jnz`, `Jnc`, `Jz`, `Jc` (R100, R101, R103, R104). That the displacement byte is two's complement is the
spec's decision D31, its digits are D5 and D6, the texts but for `jnz` are D9. -/
def Obligations.RelativeBranchesMeetTheirRules : Prop :=
  ∀ r : Byte,
    MeetsRule (.jnz r) [0b10010000#8, r]
      ⟨.jnz, .relativeBranch r.toInt, .empty, 1, 2⟩ (lit "jnz " ++ displacementText r.toInt) ∧
    MeetsRule (.jnc r) [0b10010001#8, r]
      ⟨.jnc, .relativeBranch r.toInt, .empty, 1, 2⟩ (lit "jnc " ++ displacementText r.toInt) ∧
    MeetsRule (.jz r) [0b10011000#8, r]
      ⟨.jz, .relativeBranch r.toInt, .empty, 1, 2⟩ (lit "jz " ++ displacementText r.toInt) ∧
    MeetsRule (.jc r) [0b10011001#8, r]
      ⟨.jc, .relativeBranch r.toInt, .empty, 1, 2⟩ (lit "jc " ++ displacementText r.toInt)

/-- `JccLowGroup` and `JccHighGroup`, selectors 2 to 7 (R102, R105); the digits of the selector are the spec's
decision D8, the displacement's D5, D6 and D31. -/
def Obligations.JccGroupsMeetTheirRules : Prop :=
  ∀ (c : BitVec 3) (r : Byte), 2#3 ≤ c →
    MeetsRule (.jccLowGroup c r) [0b10010000#8 ||| c.setWidth 8, r]
      ⟨.jccLowGroup, .imm8 (c.setWidth 8), .relativeBranch r.toInt, 2, 2⟩
      (lit "jcc.lo." ++ hex c.toNat ++ lit " " ++ displacementText r.toInt) ∧
    MeetsRule (.jccHighGroup c r) [0b10011000#8 ||| c.setWidth 8, r]
      ⟨.jccHighGroup, .imm8 (c.setWidth 8), .relativeBranch r.toInt, 2, 2⟩
      (lit "jcc.hi." ++ hex c.toNat ++ lit " " ++ displacementText r.toInt)

/-- `Ret`, `Iret`, `Jmp` (R106 to R108); `l` and `h` are the low and the high byte. -/
def Obligations.RetIretAndJmpMeetTheirRules : Prop :=
  MeetsRule .ret [0b10111001#8] ⟨.ret, .empty, .empty, 0, 1⟩ (lit "ret") ∧
  MeetsRule .iret [0b10111010#8] ⟨.iret, .empty, .empty, 0, 1⟩ (lit "iret") ∧
  ∀ l h : Byte, MeetsRule (.jmp (h ++ l)) [0b10111100#8, l, h]
    ⟨.jmp, .imm16 (h ++ l), .empty, 1, 3⟩ (lit "jmp 0x" ++ hexPadded 4 (h ++ l).toNat)

/-- `StoreAbs16` and `LoadImm8` (R120, R123): the store's text has its slots reversed. -/
def Obligations.StoreAbs16AndLoadImm8MeetTheirRules : Prop :=
  ∀ (n : BitVec 3) (l h : Byte),
    MeetsRule (.storeAbs16 n (h ++ l)) [0b11001000#8 ||| n.setWidth 8, l, h]
      ⟨.storeAbs16, .register n.toNat, .absoluteMem (h ++ l), 2, 3⟩
      (lit "[0x" ++ hexPadded 4 (h ++ l).toNat ++ lit "] <- r" ++ decimal n.toNat) ∧
    MeetsRule (.loadImm8 n l) [0b11100000#8 ||| n.setWidth 8, l]
      ⟨.loadImm8, .register n.toNat, .imm8 l, 2, 2⟩
      (lit "r" ++ decimal n.toNat ++ lit " <- 0x" ++ hexPadded 2 l.toNat)

/-- `Call` and `LoadAbs16` (R109, R124), whose texts are the spec's decision D9. -/
def Obligations.CallAndLoadAbs16MeetTheirRules : Prop :=
  ∀ (n : BitVec 3) (l h : Byte),
    MeetsRule (.call (h ++ l)) [0b10111111#8, l, h]
      ⟨.call, .imm16 (h ++ l), .empty, 1, 3⟩ (lit "call 0x" ++ hexPadded 4 (h ++ l).toNat) ∧
    MeetsRule (.loadAbs16 n (h ++ l)) [0b11101000#8 ||| n.setWidth 8, l, h]
      ⟨.loadAbs16, .register n.toNat, .absoluteMem (h ++ l), 2, 3⟩
      (lit "r" ++ decimal n.toNat ++ lit " <- [0x" ++ hexPadded 4 (h ++ l).toNat ++ lit "]")

/-- `StoreIndirect`, `StoreIndirectOffset`, `LoadIndirect`, `LoadIndirectOffset` (R121, R122, R125, R126): the
offset is unsigned. The texts are the spec's decisions D5, D7 and D9. -/
def Obligations.IndirectLoadsAndStoresMeetTheirRules : Prop :=
  ∀ (n : BitVec 3) (o : Byte),
    let pair := lit "[r" ++ decimal n.toNat ++ lit ":r" ++ decimal (n.toNat + 1)
    MeetsRule (.storeIndirect n) [0b11010000#8 ||| n.setWidth 8]
      ⟨.storeIndirect, .indirectMem n.toNat, .empty, 1, 1⟩ (pair ++ lit "] <- r0") ∧
    MeetsRule (.storeIndirectOffset n o) [0b11011000#8 ||| n.setWidth 8, o]
      ⟨.storeIndirectOffset, .indirectMemOffset n.toNat o, .empty, 1, 2⟩
      (pair ++ lit " + 0x" ++ hex o.toNat ++ lit "] <- r0") ∧
    MeetsRule (.loadIndirect n) [0b11110000#8 ||| n.setWidth 8]
      ⟨.loadIndirect, .indirectMem n.toNat, .empty, 1, 1⟩ (lit "r0 <- " ++ pair ++ lit "]") ∧
    MeetsRule (.loadIndirectOffset n o) [0b11111000#8 ||| n.setWidth 8, o]
      ⟨.loadIndirectOffset, .indirectMemOffset n.toNat o, .empty, 1, 2⟩
      (lit "r0 <- " ++ pair ++ lit " + 0x" ++ hex o.toNat ++ lit "]")

/-- The 28 bytes that begin no instruction: their meaning is to take the error `InvalidOpcode` after one byte
(R57, R195), with no byte of the stream changed; that the cursor then stands one byte past the mark, or at
the mark on an empty window, is the spec's decision D4. -/
def Obligations.InvalidByteTakesInvalidOpcode : Prop :=
  ∀ op : Byte, isInvalidByte op = true →
    encode (.invalid op) = [op] ∧ (∀ rest, decode (op :: rest) = .ok (.invalid op, rest)) ∧
    (∀ s : State, s.available 1 = 1 →
      exec (.invalid op) s = .next (s.afterError 1 .invalidOpcode)) ∧
    (∀ s : State, s.available 1 < 1 → exec (.invalid op) s = .next (s.afterError 0 .truncated))

/-- In a window shorter than the instruction every instruction takes `Truncated` (R191), after all the bytes
that are there; that the cursor is left behind them is the spec's decision D4 (R197). -/
def Obligations.ShortWindowTakesTruncated : Prop :=
  ∀ (i : Instr) (s : State), s.available i.length < i.length →
    exec i s = .next (s.afterError (s.available i.length) .truncated)

/-- No instruction and no step writes the stream, a step on a short window included, and the mark they leave
is where they began (R31, R36). -/
def Obligations.NoInstructionWritesTheStream : Prop :=
  (∀ (i : Instr) (s t : State), exec i s = .next t →
    t.mark = s.pos ∧ ∀ a, t.stream.read a = s.stream.read a) ∧
  (∀ s t : State, step s = .next t →
    t.mark = s.pos ∧ t.stream = s.stream ∧ ∀ a, t.stream.read a = s.stream.read a)

/-! ### The step -/

/-- A step runs the instruction that the bytes at the cursor decode to; where they decode to none, it is
the transaction of a short window. That the step finds the instruction by a look at up to three bytes before
the reads is the model's own dispatch (DESIGN CHOICE, log entry 16), which no rule of the spec says; that
it comes to what the spec says is `Obligations.StepIsTheDecodeAlgorithm`. -/
def Obligations.StepRunsTheDecodedInstruction : Prop :=
  (∀ (s : State) (i : Instr) (rest : List Byte), decode s.ahead = .ok (i, rest) → step s = exec i s) ∧
  (∀ (s : State) (e : DecodeError), decode s.ahead = .error e → step s = .next s.transactTruncated)

/-- One step is one call of `decode(cur)` as R60 writes it, read by read, for every window and every state
of the cursor, whichever bijection FAMILY_OP is (D2; `signed_8` is D31). That the text is put out with the
Instruction is the model's choice, log entry 8. -/
def Obligations.StepIsTheDecodeAlgorithm : Prop := ∀ s : State, step s = .next s.decodeCall

/-- Nothing stops the machine: every step answers a next state, whose result is an Instruction with at
least one byte and as many operands as its opcode has, or one of the two errors (R221 (a)). -/
def Obligations.EveryStepGivesAResult : Prop :=
  ∀ s : State, ∃ t, step s = .next t ∧
    ((∃ ins, t.result = some (.instruction ins) ∧ 1 ≤ ins.byteLength ∧
        ins.operandCount = arity ins.opcode) ∨
      t.result = some (.error .truncated) ∨ t.result = some (.error .invalidOpcode))

/-- Every step keeps the invariant (`State.Inv`). Its clauses on the cursor after an error (one byte past
the mark after `InvalidOpcode`; at most two, and no byte there, after `Truncated`) are the spec's decision
D4 (log entry 13); the canonical form of the stream is the model's choice (log entry 18). -/
def Obligations.EveryStepKeepsTheInvariant : Prop :=
  ∀ s t : State, s.Inv → step s = .next t → t.Inv

/-- The state after reset has the invariant; that its stream is empty and its positions are 0 is the
model's choice (log entry 5). -/
def Obligations.ResetHasTheInvariant : Prop :=
  State.reset.Inv ∧ State.reset.result = none ∧ State.reset.text = none

/-- What a step does depends on the stream and the position alone: not on the mark, the result or the text
that an earlier transaction left (R10, R198). -/
def Obligations.StepForgetsEarlierTransactions : Prop :=
  ∀ (s : State) (m : Nat) (r : Option DecodeResult) (x : Option Text),
    step { s with mark := m, result := r, text := x } = step s

/-- An Instruction depends on the bytes it is made of and on no other: on a stream that agrees on them, at
whatever position, the step gives the same Instruction and the same text (R221 (e), (f)). -/
def Obligations.InstructionDependsOnItsBytesOnly : Prop :=
  ∀ (s t s' : State) (ins : Instruction), step s = .next s' → s'.result = some (.instruction ins) →
    agreeOnNext ins.byteLength s t →
    ∃ t', step t = .next t' ∧ t'.result = s'.result ∧ t'.text = s'.text ∧
      t'.pos = t.pos + ins.byteLength

/-- `InvalidOpcode` is the result for exactly the 28 bytes of R57, whatever follows them or does not (R192; that
a short window does not matter is the spec's decision D3). -/
def Obligations.InvalidOpcodeExactly : Prop :=
  ∀ (s : State) (op : Byte), s.stream.read s.pos = some op →
    ∃ t, step s = .next t ∧
      (t.result = some (.error .invalidOpcode) ↔
        0xa0#8 ≤ op ∧ op ≤ 0xb7#8 ∨ op ∈ [0xb8#8, 0xbb#8, 0xbd#8, 0xbe#8])

/-- `Truncated` by the length of the window (R191): on an empty window; on an opcode byte of a two-byte
instruction alone; on one of a three-byte instruction with one or two bytes; never otherwise, and then an
invalid byte gives `InvalidOpcode` and any other an Instruction. -/
def Obligations.TruncatedExactly : Prop :=
  ∀ s : State, ∃ t, step s = .next t ∧
    (s.available 1 = 0 → t.result = some (.error .truncated)) ∧
    ∀ op, s.stream.read s.pos = some op →
      if 0xa0#8 ≤ op ∧ op ≤ 0xb8#8 ∨ op ∈ [0xbb#8, 0xbd#8, 0xbe#8] then
        t.result = some (.error .invalidOpcode)
      else if 0x90#8 ≤ op ∧ op ≤ 0x9f#8 ∨ 0xd8#8 ≤ op ∧ op ≤ 0xe7#8 ∨ 0xf8#8 ≤ op then
        if s.available 2 = 1 then t.result = some (.error .truncated)
        else ∃ ins, t.result = some (.instruction ins)
      else if op ∈ [0xbc#8, 0xbf#8] ∨ 0xc8#8 ≤ op ∧ op ≤ 0xcf#8 ∨ 0xe8#8 ≤ op ∧ op ≤ 0xef#8 then
        if s.available 3 = 1 ∨ s.available 3 = 2 then t.result = some (.error .truncated)
        else ∃ ins, t.result = some (.instruction ins)
      else ∃ ins, t.result = some (.instruction ins)

/-- Where the cursor stands after each outcome, and that after `Truncated` it is at the end of its window (R197;
for the errors this is the spec's decision D4). -/
def Obligations.CursorAfterEachOutcome : Prop :=
  ∀ s t : State, step s = .next t →
    t.mark = s.pos ∧
    (∀ ins, t.result = some (.instruction ins) → t.offset = ins.byteLength) ∧
    (t.result = some (.error .invalidOpcode) → t.offset = 1) ∧
    (t.result = some (.error .truncated) →
      t.offset = s.available 2 ∧ t.stream.read t.pos = none)

/-- After `Truncated` every further step gives `Truncated` again (R198) and leaves the cursor where it is, at
the end of the window, with the mark renewed there. That the cursor stands there after `Truncated` is the
spec's decision D4 (log entry 13). -/
def Obligations.TruncatedStaysTruncated : Prop :=
  ∀ s t : State, step s = .next t → t.result = some (.error .truncated) →
    step t = .next (t.afterError 0 .truncated)

/-- Every Instruction a step gives is valid, its operands are of the signature's variants (R14, R179), and
the step gives its text. -/
def Obligations.DecodedInstructionsAreValid : Prop :=
  ∀ (s t : State) (ins : Instruction), step s = .next t → t.result = some (.instruction ins) →
    isValid ins = true ∧
    [variant ins.slot0, variant ins.slot1].take ins.operandCount = signature ins.opcode ∧
    t.text = some (template ins.opcode ins.slot0 ins.slot1)

/-- An instruction of the opcode table placed where the step fetches is what the step runs. How it is placed
(`withFetchWord`: three bytes at the cursor, zeros above `nbits`) and how its bits are numbered is the
model's (log entry 6), and so is the look at the bytes before the reads (log entry 16); no rule of the spec
says either. -/
def Obligations.FetchWordIsRunNext : Prop :=
  ∀ (s : State) (nbits w : Nat) (i : Instr), decodeTableWord nbits w = some i →
    step (s.withFetchWord nbits w) = exec i (s.withFetchWord nbits w)

/-! ### Accessors, renderer, calls -/

/-- The accessors (R16): `length` and `operand_count` are the record's; `operand(i)` is the slot for every
`i < operand_count` and `None` for every `i ≥ operand_count`, and for a valid Instruction it is `Some` below
the count and never `Empty`. -/
def Obligations.OperandAccessorContract : Prop :=
  (∀ ins : Instruction, lengthOf ins = ins.byteLength ∧ operandCountOf ins = ins.operandCount ∧
    ∀ i : Nat, ins.operandCount ≤ i → operandOf ins i = none) ∧
  (∀ ins : Instruction, isValid ins = true →
    operandCountOf ins ≤ 2 ∧
    ∀ i : Nat, i < operandCountOf ins →
      operandOf ins i = [ins.slot0, ins.slot1][i]? ∧ (operandOf ins i).isSome = true ∧
        operandOf ins i ≠ some .empty)

/-- The number formats (R130): read back digit by digit they give the value, with no leading zero but for
zero itself, and the padded form has the digits asked for. -/
def Obligations.NumberFormatsReadBack : Prop :=
  let digits := lit "0123456789abcdef"
  let value := fun (base : Nat) (t : Text) => t.foldl (fun a c => base * a + digits.idxOf c) 0
  ∀ v : Nat,
    value 10 (decimal v) = v ∧ value 16 (hex v) = v ∧
    (∀ c ∈ decimal v, c ∈ digits.take 10) ∧ (∀ c ∈ hex v, c ∈ digits) ∧
    (v ≠ 0 → (decimal v).head? ≠ some '0' ∧ (hex v).head? ≠ some '0') ∧
    (decimal 0 = lit "0" ∧ hex 0 = lit "0") ∧
    ∀ n, 0 < n → v < 16 ^ n → (hexPadded n v).length = n ∧ value 16 (hexPadded n v) = v

/-- The texts of a register, an absolute address and the two immediates (R132, R134, R138, R139). That a
register number is decimal, which shows from 10 on, is the spec's decision D7 (log entry 12). -/
def Obligations.PlainOperandTexts : Prop :=
  (∀ n, renderOperand (.register n) = lit "r" ++ decimal n) ∧
  (∀ a, renderOperand (.absoluteMem a) = lit "[0x" ++ hexPadded 4 a.toNat ++ lit "]") ∧
  (∀ i, renderOperand (.imm8 i) = lit "0x" ++ hexPadded 2 i.toNat) ∧
  (∀ i, renderOperand (.imm16 i) = lit "0x" ++ hexPadded 4 i.toNat)

/-- The texts of the other operand variants (R133, R135 to R137, R140): the sum `n + 1` does not wrap, an
offset and a displacement have no padding, a displacement is a sign and the absolute value. That is the
spec's decisions D5, D6 and D7. -/
def Obligations.PairAndDisplacementTexts : Prop :=
  (∀ n, renderOperand (.registerPair n) = lit "r" ++ decimal n ++ lit ":r" ++ decimal (n + 1)) ∧
  (∀ n, renderOperand (.indirectMem n) =
    lit "[r" ++ decimal n ++ lit ":r" ++ decimal (n + 1) ++ lit "]") ∧
  (∀ n o, renderOperand (.indirectMemOffset n o) =
    lit "[r" ++ decimal n ++ lit ":r" ++ decimal (n + 1) ++ lit " + 0x" ++ hex o.toNat ++ lit "]") ∧
  (∀ k : Nat, renderOperand (.relativeBranch k) = lit "$+0x" ++ hex k) ∧
  (∀ k : Nat, 0 < k → renderOperand (.relativeBranch (-k)) = lit "$-0x" ++ hex k) ∧
  renderOperand .empty = []

/-- `render` as a call is total over valid Instructions and refused outside them (R179, R200). -/
def Obligations.RenderExactlyTheValid : Prop :=
  ∀ ins : Instruction,
    (isValid ins = true → ∃ text, callRender ins = .next text ∧ text ≠ []) ∧
    (isValid ins = false → callRender ins = .refused .outOfContract)

/-- The text of an opcode (R180): the 38 strings, one for each opcode and no two of them equal; where the
template has a mnemonic word the rendered text begins with it. All but twelve of these strings are the
spec's decision D10. -/
def Obligations.OpcodeTexts : Prop :=
  let words : List (Opcode × String) :=
    [(.adc, "adc"), (.sbc, "sbc"), (.cmp, "cmp"), (.rcl, "rcl"), (.rcr, "rcr"), (.inc, "inc"),
     (.dec, "dec"), (.incW, "incw"), (.scf, "scf"), (.ccf, "ccf"), (.bit, "bit"), (.jz, "jz"),
     (.jnz, "jnz"), (.jc, "jc"), (.jnc, "jnc"), (.jmp, "jmp"), (.call, "call"), (.ret, "ret"),
     (.iret, "iret"), (.push, "push"), (.pop, "pop"), (.op5xHi, "op5xhi"), (.op6xHi, "op6xhi"),
     (.jccLowGroup, "jcc.lo"), (.jccHighGroup, "jcc.hi")]
  let names : List (Opcode × String) :=
    [(.or, "or"), (.and, "and"), (.xor, "xor"), (.add, "add"), (.movRegToAcc, "movregtoacc"),
     (.movAccToReg, "movacctoreg"), (.loadImm8, "loadimm8"), (.loadAbs16, "loadabs16"),
     (.storeAbs16, "storeabs16"), (.loadIndirect, "loadindirect"), (.storeIndirect, "storeindirect"),
     (.loadIndirectOffset, "loadindirectoffset"), (.storeIndirectOffset, "storeindirectoffset")]
  (∀ o : Opcode, ∃ p ∈ words ++ names, p.1 = o) ∧
  (∀ p ∈ words ++ names, renderOpcode p.1 = lit p.2) ∧
  (∀ o p, renderOpcode o = renderOpcode p → o = p) ∧
  (∀ ins text, callRender ins = .next text → ins.opcode ∈ words.map Prod.fst →
    renderOpcode ins.opcode <+: text)

/-- The text of every decoded Instruction (R181): at most 20 characters, of the listed set, with no leading
and no trailing space and no two spaces in a row. The set and the spacing are the spec's decision D23. -/
def Obligations.TextProperties : Prop :=
  ∀ (s t : State) (text : Text), step s = .next t → t.text = some text →
    text ≠ [] ∧ text.length ≤ 20 ∧
    (∀ c ∈ text, c ∈ lit "abcdefghijklmnopqrstuvwxyz0123456789 []:+-$.,<^|&=") ∧
    text.head? ≠ some ' ' ∧ text.getLast? ≠ some ' ' ∧ ¬ [' ', ' '] <:+: text

/-- Requests that a model of the block refuses, and the ones beside them that it answers: to execute a decoded
instruction (U9; the spec's decision D21), to read an Instruction after an error (U1; its decision D20), and
to run two transactions on one cursor (U12; its decision D22); on independent cursors each is as if it were
alone (R43). That reading is refused too where there is no result, as before any transaction, is deduced by
the model (log entry 20): R27 calls that output unspecified and no more. -/
def Obligations.RefusedRequests : Prop :=
  (∀ ins s, callExecute ins s = .refused .executionUnknown) ∧
  (∀ (s : State) (e : DecodeError),
    s.result = some (.error e) ∨ s.result = none → s.takeInstruction = .refused .noInstruction) ∧
  (∀ (s : State) (ins : Instruction),
    s.result = some (.instruction ins) → s.takeInstruction = .next ins) ∧
  (∀ c s t, decodeConcurrently c c s t = .refused .sharedCursor) ∧
  (∀ c d s t, c ≠ d → decodeConcurrently c d s t = .next (s.decodeCall, t.decodeCall))

/-- `decode_slice` decodes exactly one instruction from the start of the bytes (R44): it is one step on a new
cursor over them, and bytes after the instruction have no influence. -/
def Obligations.DecodeSliceIsOneStep : Prop :=
  (∀ bs : List Byte, ∃ t, step (State.onBytes bs) = .next t ∧ t.result = some (decodeSlice bs)) ∧
  (∀ (bs extra : List Byte) (ins : Instruction), decodeSlice bs = .instruction ins →
    decodeSlice (bs ++ extra) = .instruction ins)

/-- A reset that arrives during a transaction, after however many of its reads, leaves neither an Instruction
nor an error (R27, R210; the spec's decision D13), and the stream as it was. The cursor stands behind the
bytes that were read: as many as the reset let the transaction read, and never more than the transaction
itself reads (R34). That they stay consumed, and that the mark and the stream stay, is the model's choice,
log entries 7 and 23; that reading the Instruction is then refused is log entry 20. -/
def Obligations.ResetAbandonsATransaction : Prop :=
  ∀ (s : State) (k : Nat),
    (s.resetDuring k).result = none ∧ (s.resetDuring k).text = none ∧
    (s.resetDuring k).stream = s.stream ∧ (s.resetDuring k).mark = s.pos ∧
    (s.resetDuring k).pos = s.pos + s.available (min k s.wanted) ∧
    (∃ t, step s = .next t ∧ (s.resetDuring k).pos = min (s.pos + k) t.pos) ∧
    (s.resetDuring k).takeInstruction = .refused .noInstruction

/-! ### What a caller computes -/

/-- The target of a relative branch is the address of the next instruction plus the displacement, modulo 2^16
(R110; that it wraps is the spec's decision D11), for each of the six relative branches. -/
def Obligations.RelativeTargetArithmetic : Prop :=
  ∀ (a : Word16) (ins : Instruction) (rel : Int), isValid ins = true →
    operandOf ins 0 = some (.relativeBranch rel) ∨ operandOf ins 1 = some (.relativeBranch rel) →
    ∃ target, transferTarget a ins = some target ∧
      (target.toNat : Int) = (a.toNat + ins.byteLength + rel) % 2 ^ 16 ∧
      (ins.byteLength = 2 → rel = -2 → target = a)

/-- The target of `Jmp` and `Call`, for a caller that takes the immediate as the destination, is the immediate
unchanged (R111, the spec's decision D25); an Instruction that is no branch has none. -/
def Obligations.AbsoluteTargetIsTheImmediate : Prop :=
  (∀ (a : Word16) (ins : Instruction) (imm : Word16), isValid ins = true →
    ins.slot0 = .imm16 imm → transferTarget a ins = some imm) ∧
  (∀ (a : Word16) (ins : Instruction), isValid ins = true →
    ins.opcode ∉ [Opcode.jz, .jnz, .jc, .jnc, .jccLowGroup, .jccHighGroup, .jmp, .call] →
    transferTarget a ins = none)

/-- The address an operand names, for a caller that knows the registers (R127): an absolute address as it
stands, the value of a pair in one of its two byte orders, and that value plus the unsigned offset where
the sum has 16 bits; other operands name no memory. The byte order is open (log entry 2), and so is the
address where the sum is above 16 bits (log entry 4), of which nothing is stated. -/
def Obligations.OperandAddressesForACaller : Prop :=
  ∀ reg : Nat → Byte,
    (∀ a, effectiveAddress reg (.absoluteMem a) = some a) ∧
    (∀ n, ∃ v, effectiveAddress reg (.indirectMem n) = some v ∧
      (v.toNat = 256 * (reg n).toNat + (reg (n + 1)).toNat ∨
        v.toNat = (reg n).toNat + 256 * (reg (n + 1)).toNat)) ∧
    (∀ n offs v, effectiveAddress reg (.indirectMem n) = some v → v.toNat + offs.toNat < 2 ^ 16 →
      ∃ w, effectiveAddress reg (.indirectMemOffset n offs) = some w ∧
        w.toNat = v.toNat + offs.toNat) ∧
    (∀ x, variant x ∉ [.absoluteMem, .indirectMem, .indirectMemOffset] → effectiveAddress reg x = none)

/-- A byte that the collaborator changes between two transactions is the byte read there afterwards (R42),
every other byte reads as before, and the cursor stays. That the stream keeps its canonical form is about
the model's own form of it (DESIGN CHOICE, log entry 18), of which R42 says nothing. -/
def Obligations.PatchChangesOneByte : Prop :=
  ∀ (s : State) (a : Nat) (b : Byte),
    (s.patch a b).stream.read a = some b ∧
    (∀ c, c ≠ a → (s.patch a b).stream.read c = s.stream.read c) ∧
    (s.patch a b).pos = s.pos ∧ (s.stream.wf → (s.patch a b).stream.wf)

/-- The linear sweep (R220) always ends, at one of its three ends, and has then consumed exactly the bytes of its
rows and those of the transaction that failed, if one did. The sweep is the spec's own harness (D1). Where
the cursor stands after the failed transaction (one byte past the rows after `InvalidOpcode`; one or two past
them, with no byte there, after `Truncated`) is R197, the spec's decision D4 (log entry 13). -/
def Obligations.SweepEndsAndAccountsForEveryByte : Prop :=
  ∀ s : State,
    let report := s.sweepAll
    let lengths := (report.rows.map fun row => row.ins.byteLength).sum
    report.final.stream = s.stream ∧
    ((report.ending = .cleanEnd ∧ report.final.pos = s.pos + lengths ∧
        s.stream.read report.final.pos = none) ∨
      (report.ending = .invalidOpcode ∧ report.final.pos = s.pos + lengths + 1 ∧
        ∃ op, s.stream.read (s.pos + lengths) = some op ∧ isInvalidByte op = true) ∨
      (report.ending = .truncated ∧ s.stream.read report.final.pos = none ∧
        s.pos + lengths < report.final.pos ∧ report.final.pos ≤ s.pos + lengths + 2))

/-- The rows of a sweep stand one behind the other: each row's Instruction is what a step at its position gives,
and the next row stands where it ends (R220). -/
def Obligations.SweepRowsAreConsecutiveSteps : Prop :=
  ∀ (s : State) (before after : List SweepRow) (row : SweepRow),
    s.sweepAll.rows = before ++ row :: after →
    row.position = s.pos + (before.map fun r => r.ins.byteLength).sum ∧
    ∃ t, step { s with pos := row.position } = .next t ∧
      t.result = some (.instruction row.ins) ∧ t.text = row.text
end

