-- ==== Sys2Proof/Laws/Decode.lean ====
section
/-! SUPPORT. What the decoder can answer, by the number of follow-on bytes the opcode byte asks for. -/

namespace Sys2Proof

theorem followOn_le_two (op : Byte) : followOn op ≤ 2 := by
  unfold followOn; split
  · omega
  · split <;> omega

/-- The decoder answers an instruction in exactly these three cases. -/
theorem decode_ok_cases {bs : List Byte} {i : Instr} {rest : List Byte}
    (h : decode bs = .ok (i, rest)) :
    (∃ op, followOn op = 0 ∧ bs = op :: rest ∧ i = assemble op 0#8 0#8) ∨
      (∃ op b1, followOn op = 1 ∧ bs = op :: b1 :: rest ∧ i = assemble op b1 0#8) ∨
      (∃ op b1 b2, followOn op = 2 ∧ bs = op :: b1 :: b2 :: rest ∧ i = assemble op b1 b2) := by
  cases bs with
  | nil => simp [decode] at h
  | cons op tail =>
    have h2 := followOn_le_two op
    rcases hf : followOn op with _ | _ | _ | k
    · simp only [decode, hf, Except.ok.injEq, Prod.mk.injEq] at h
      exact .inl ⟨op, hf, by rw [h.2], h.1.symm⟩
    · rcases tail with _ | ⟨b1, tail⟩
      · simp [decode, hf] at h
      · simp only [decode, hf, Except.ok.injEq, Prod.mk.injEq] at h
        exact .inr (.inl ⟨op, b1, hf, by rw [h.2], h.1.symm⟩)
    · rcases tail with _ | ⟨b1, _ | ⟨b2, tail⟩⟩
      · simp [decode, hf] at h
      · simp [decode, hf] at h
      · simp only [decode, hf, Except.ok.injEq, Prod.mk.injEq] at h
        exact .inr (.inr ⟨op, b1, b2, hf, by rw [h.2], h.1.symm⟩)
    · omega

/-- The decoder refuses nothing but a byte sequence that is too short. -/
theorem decode_error (bs : List Byte) (e : DecodeError) (h : decode bs = .error e) :
    e = .truncated := by
  cases bs with
  | nil => simp [decode] at h; exact h.symm
  | cons op tail =>
    simp only [decode] at h
    split at h <;> simp at h
    exact h.symm

end Sys2Proof
end

