-- ==== Sys2Proof/Laws/FamilyOp.lean ====
section
/-! SUPPORT. Every arrangement is a permutation of its list, so each open family carries one of the
nine unplaced names, a register-form opcode. -/

namespace Sys2Proof.Machine

theorem arrange_perm {α : Type} (rank : Nat) (xs : List α) : (arrange rank xs).Perm xs := by
  induction xs generalizing rank with
  | nil => simp [arrange]
  | cons x xs ih =>
    have hlen : (arrange (rank / (xs.length + 1)) xs).length = xs.length := (ih _).length_eq
    refine (List.perm_insertIdx x _ ?_).trans ((ih _).cons x)
    have := Nat.mod_lt rank (show 0 < xs.length + 1 by omega)
    omega

theorem openIndex_lt (f : RegFamily) (k : Nat) (h : openIndex f = some k) : k < 9 := by
  cases f <;> simp [openIndex] at h <;> omega

/-- An open family carries one of the nine unplaced names. -/
theorem familyOpOf_open_mem (rank : Nat) (f : RegFamily) (k : Nat) (h : openIndex f = some k) :
    familyOpOf rank f ∈ unplacedOpcodes := by
  have hp := arrange_perm rank unplacedOpcodes
  have hk : k < (arrange rank unplacedOpcodes).length := by
    rw [hp.length_eq]; exact openIndex_lt f k h
  rw [← hp.mem_iff]
  simp only [familyOpOf, h, List.getD_eq_getElem _ _ hk]
  exact List.getElem_mem hk

theorem unplaced_signature (opc : Opcode) (h : opc ∈ unplacedOpcodes) :
    signature opc = [.register] := by
  simp only [unplacedOpcodes, List.mem_cons, List.not_mem_nil, or_false] at h
  rcases h with rfl | rfl | rfl | rfl | rfl | rfl | rfl | rfl | rfl <;> rfl

/-- Whatever FAMILY_OP is, a family 0x00 to 0x50 carries an opcode of one register operand. -/
theorem familyOp_signature (f : RegFamily) : signature (familyOp f) = [.register] := by
  cases hf : openIndex f with
  | some k => exact unplaced_signature _ (familyOpOf_open_mem _ f k hf)
  | none => cases f <;> simp [openIndex] at hf <;> rfl

end Sys2Proof.Machine
end

