-- ==== Sys2Proof/Laws/Memory.lean ====
section
/-! SUPPORT. The stream: reading after writing, the canonical form is kept, and what a peek sees. -/

namespace Sys2Proof.Machine

theorem read_write_same (m : Memory) (a : Nat) (v : Byte) : (m.write a v).read a = some v := by
  induction m with
  | nil => simp [Memory.write, Memory.read]
  | cons x rest ih =>
    obtain ⟨p, b⟩ := x
    simp only [Memory.write]
    split
    · simp [Memory.read]
    · split
      · simp [Memory.read]
      · rename_i h
        simpa [Memory.read, h] using ih

theorem read_write_other (m : Memory) (a c : Nat) (v : Byte) (h : c ≠ a) :
    (m.write a v).read c = m.read c := by
  induction m with
  | nil => simp [Memory.write, Memory.read, h]
  | cons x rest ih =>
    obtain ⟨p, b⟩ := x
    simp only [Memory.write]
    split
    · simp [Memory.read, h]
    · split
      · rename_i hp
        subst hp
        simp [Memory.read, h]
      · simp only [Memory.read]
        split
        · rfl
        · exact ih

/-- Every entry of a written stream is the new one or an old one. -/
theorem mem_write (m : Memory) (a : Nat) (v : Byte) (x : Host.Cell) (h : x ∈ m.write a v) :
    x = (a, v) ∨ x ∈ m := by
  induction m with
  | nil => simpa [Memory.write] using h
  | cons y rest ih =>
    obtain ⟨p, b⟩ := y
    simp only [Memory.write] at h
    split at h
    · simpa using h
    · split at h
      · rcases List.mem_cons.mp h with h | h
        · exact .inl h
        · exact .inr (List.mem_cons_of_mem _ h)
      · rcases List.mem_cons.mp h with h | h
        · exact .inr (h ▸ List.mem_cons_self)
        · exact (ih h).imp_right (List.mem_cons_of_mem _)

theorem wf_write (m : Memory) (a : Nat) (v : Byte) (h : m.wf) : (m.write a v).wf := by
  induction m with
  | nil => simp [Memory.write]
  | cons x rest ih =>
    obtain ⟨p, b⟩ := x
    obtain ⟨hx, hrest⟩ := List.pairwise_cons.mp h
    simp only [Memory.write]
    split
    · rename_i hlt
      refine List.pairwise_cons.mpr ⟨fun y hy => ?_, h⟩
      rcases List.mem_cons.mp hy with rfl | hy
      · exact hlt
      · exact Nat.lt_trans hlt (hx y hy)
    · split
      · rename_i heq
        subst heq
        exact List.pairwise_cons.mpr ⟨hx, hrest⟩
      · refine List.pairwise_cons.mpr ⟨fun y hy => ?_, ih hrest⟩
        rcases mem_write _ _ _ _ hy with rfl | hy
        · simp only; omega
        · exact hx y hy

theorem wf_writeBytes (m : Memory) (a : Nat) (bs : List Byte) (h : m.wf) :
    (m.writeBytes a bs).wf := by
  induction bs generalizing m a with
  | nil => exact h
  | cons b rest ih => exact ih _ _ (wf_write m a b h)

theorem reset_wf : State.reset.stream.wf := List.Pairwise.nil

theorem onBytes_wf (bs : List Byte) : (State.onBytes bs).stream.wf :=
  wf_writeBytes [] 0 bs List.Pairwise.nil

theorem withFetchWord_stream_wf (m : Memory) (p nbits w : Nat) (h : m.wf) :
    (m.writeBytes p (tableBytes nbits w)).wf := wf_writeBytes _ _ _ h

/-- A run of bytes written leaves every position below it as it was. -/
theorem read_writeBytes_below (m : Memory) (a c : Nat) (bs : List Byte) (h : c < a) :
    (m.writeBytes a bs).read c = m.read c := by
  induction bs generalizing m a with
  | nil => rfl
  | cons b rest ih =>
    rw [Memory.writeBytes, ih _ _ (by omega), read_write_other _ _ _ _ (by omega)]

/-- A run of bytes written is what a read inside it gives. -/
theorem read_writeBytes_inside (m : Memory) (a j : Nat) (bs : List Byte) (h : j < bs.length) :
    (m.writeBytes a bs).read (a + j) = bs[j]? := by
  induction bs generalizing m a j with
  | nil => simp at h
  | cons b rest ih =>
    cases j with
    | zero => simp [Memory.writeBytes, read_writeBytes_below _ _ _ _ (Nat.lt_succ_self a), read_write_same]
    | succ j =>
      have := ih (m.write a b) (a + 1) j (by simpa using h)
      simpa [Memory.writeBytes, Nat.add_assoc, Nat.add_comm 1 j] using this

@[simp] theorem peek_zero (m : Memory) (a : Nat) : m.peek a 0 = [] := by
  unfold Memory.peek; rfl

theorem peek_succ (m : Memory) (a k : Nat) :
    m.peek a (k + 1) = match m.read a with
      | some b => b :: m.peek (a + 1) k
      | none => [] := by
  cases h : m.read a <;> simp [Memory.peek, h]

theorem peek_length_le (m : Memory) (a k : Nat) : (m.peek a k).length ≤ k := by
  induction k generalizing a with
  | zero => simp
  | succ k ih =>
    rw [peek_succ]
    split
    · simpa using ih (a + 1)
    · simp

/-- Where a peek stopped short of what was asked, the stream has no byte. -/
theorem peek_short (m : Memory) (a k : Nat) (h : (m.peek a k).length < k) :
    m.read (a + (m.peek a k).length) = none := by
  induction k generalizing a with
  | zero => omega
  | succ k ih =>
    rw [peek_succ] at h ⊢
    cases hr : m.read a with
    | none => simpa using hr
    | some b =>
      simp only [hr, List.length_cons] at h ⊢
      have := ih (a + 1) (by omega)
      rwa [show a + 1 + (m.peek (a + 1) k).length = a + ((m.peek (a + 1) k).length + 1) by omega] at this

/-- A shorter peek is the beginning of a longer one. -/
theorem peek_take (m : Memory) (a j k : Nat) (h : j ≤ k) : (m.peek a k).take j = m.peek a j := by
  induction j generalizing a k with
  | zero => simp
  | succ j ih =>
    obtain ⟨k, rfl⟩ : ∃ k', k = k' + 1 := ⟨k - 1, by omega⟩
    rw [peek_succ, peek_succ]
    cases m.read a with
    | none => simp
    | some b => simp [ih (a + 1) k (by omega)]

end Sys2Proof.Machine
end

