-- ==== Sys2Proof/Laws/PerInstr.lean ====
section
/-! SUPPORT. Facts about every instruction as syntax, one lemma for each constructor. -/

namespace Sys2Proof.Laws.EncodedLength

/-- The encoding of a well-formed instruction is as long as 30_encoding.md R45 says, and its first byte
alone tells that length (R59). -/
def Statement (i : Instr) : Prop :=
  i.wellFormed = true →
    (encode i).length = i.length ∧ (encode i).head?.map (fun op => 1 + followOn op) = some i.length

theorem followOn_invalid : ∀ op : Byte, isInvalidByte op = true → followOn op = 0 := by decide

theorem family00 (n : BitVec 3) : Statement (.family00 n) :=
  fun _ => ⟨rfl, congrArg (fun k => some (1 + k))
    ((by decide : ∀ x, followOn (opcodeByte 0x00#8 x) = 0) n)⟩

theorem family08 (n : BitVec 3) : Statement (.family08 n) :=
  fun _ => ⟨rfl, congrArg (fun k => some (1 + k))
    ((by decide : ∀ x, followOn (opcodeByte 0x08#8 x) = 0) n)⟩

theorem family10 (n : BitVec 3) : Statement (.family10 n) :=
  fun _ => ⟨rfl, congrArg (fun k => some (1 + k))
    ((by decide : ∀ x, followOn (opcodeByte 0x10#8 x) = 0) n)⟩

theorem family18 (n : BitVec 3) : Statement (.family18 n) :=
  fun _ => ⟨rfl, congrArg (fun k => some (1 + k))
    ((by decide : ∀ x, followOn (opcodeByte 0x18#8 x) = 0) n)⟩

theorem family20 (n : BitVec 3) : Statement (.family20 n) :=
  fun _ => ⟨rfl, congrArg (fun k => some (1 + k))
    ((by decide : ∀ x, followOn (opcodeByte 0x20#8 x) = 0) n)⟩

theorem xor (n : BitVec 3) : Statement (.xor n) :=
  fun _ => ⟨rfl, congrArg (fun k => some (1 + k))
    ((by decide : ∀ x, followOn (opcodeByte 0x28#8 x) = 0) n)⟩

theorem family30 (n : BitVec 3) : Statement (.family30 n) :=
  fun _ => ⟨rfl, congrArg (fun k => some (1 + k))
    ((by decide : ∀ x, followOn (opcodeByte 0x30#8 x) = 0) n)⟩

theorem family38 (n : BitVec 3) : Statement (.family38 n) :=
  fun _ => ⟨rfl, congrArg (fun k => some (1 + k))
    ((by decide : ∀ x, followOn (opcodeByte 0x38#8 x) = 0) n)⟩

theorem family40 (n : BitVec 3) : Statement (.family40 n) :=
  fun _ => ⟨rfl, congrArg (fun k => some (1 + k))
    ((by decide : ∀ x, followOn (opcodeByte 0x40#8 x) = 0) n)⟩

theorem sbc (n : BitVec 3) : Statement (.sbc n) :=
  fun _ => ⟨rfl, congrArg (fun k => some (1 + k))
    ((by decide : ∀ x, followOn (opcodeByte 0x48#8 x) = 0) n)⟩

theorem family50 (n : BitVec 3) : Statement (.family50 n) :=
  fun _ => ⟨rfl, congrArg (fun k => some (1 + k))
    ((by decide : ∀ x, followOn (opcodeByte 0x50#8 x) = 0) n)⟩

theorem op5xHi (k : BitVec 3) : Statement (.op5xHi k) :=
  fun _ => ⟨rfl, congrArg (fun k => some (1 + k))
    ((by decide : ∀ x, followOn (opcodeByte 0x58#8 x) = 0) k)⟩

theorem scf : Statement .scf :=
  fun _ => ⟨rfl, rfl⟩

theorem bit (k : BitVec 3) : Statement (.bit k) :=
  fun _ => ⟨rfl, congrArg (fun k => some (1 + k))
    ((by decide : ∀ x, followOn (opcodeByte 0x60#8 x) = 0) k)⟩

theorem op6xHi (k : BitVec 3) : Statement (.op6xHi k) :=
  fun _ => ⟨rfl, congrArg (fun k => some (1 + k))
    ((by decide : ∀ x, followOn (opcodeByte 0x68#8 x) = 0) k)⟩

theorem ccf : Statement .ccf :=
  fun _ => ⟨rfl, rfl⟩

theorem movAccToReg (n : BitVec 3) : Statement (.movAccToReg n) :=
  fun _ => ⟨rfl, congrArg (fun k => some (1 + k))
    ((by decide : ∀ x, followOn (opcodeByte 0x70#8 x) = 0) n)⟩

theorem cmp (n : BitVec 3) : Statement (.cmp n) :=
  fun _ => ⟨rfl, congrArg (fun k => some (1 + k))
    ((by decide : ∀ x, followOn (opcodeByte 0x78#8 x) = 0) n)⟩

theorem push (n : BitVec 3) : Statement (.push n) :=
  fun _ => ⟨rfl, congrArg (fun k => some (1 + k))
    ((by decide : ∀ x, followOn (opcodeByte 0x80#8 x) = 0) n)⟩

theorem pop (n : BitVec 3) : Statement (.pop n) :=
  fun _ => ⟨rfl, congrArg (fun k => some (1 + k))
    ((by decide : ∀ x, followOn (opcodeByte 0x88#8 x) = 0) n)⟩

theorem jnz (r : Byte) : Statement (.jnz r) :=
  fun _ => ⟨rfl, rfl⟩

theorem jnc (r : Byte) : Statement (.jnc r) :=
  fun _ => ⟨rfl, rfl⟩

theorem jccLowGroup (c : BitVec 3) (r : Byte) : Statement (.jccLowGroup c r) :=
  fun _ => ⟨rfl, congrArg (fun k => some (1 + k))
    ((by decide : ∀ x, followOn (opcodeByte 0x90#8 x) = 1) c)⟩

theorem jz (r : Byte) : Statement (.jz r) :=
  fun _ => ⟨rfl, rfl⟩

theorem jc (r : Byte) : Statement (.jc r) :=
  fun _ => ⟨rfl, rfl⟩

theorem jccHighGroup (c : BitVec 3) (r : Byte) : Statement (.jccHighGroup c r) :=
  fun _ => ⟨rfl, congrArg (fun k => some (1 + k))
    ((by decide : ∀ x, followOn (opcodeByte 0x98#8 x) = 1) c)⟩

theorem invalid (op : Byte) : Statement (.invalid op) :=
  fun h => ⟨rfl, congrArg (fun k => some (1 + k)) (followOn_invalid op h)⟩

theorem ret : Statement .ret :=
  fun _ => ⟨rfl, rfl⟩

theorem iret : Statement .iret :=
  fun _ => ⟨rfl, rfl⟩

theorem jmp (imm : Word16) : Statement (.jmp imm) :=
  fun _ => ⟨rfl, rfl⟩

theorem call (imm : Word16) : Statement (.call imm) :=
  fun _ => ⟨rfl, rfl⟩

theorem incW (n : BitVec 3) : Statement (.incW n) :=
  fun _ => ⟨rfl, congrArg (fun k => some (1 + k))
    ((by decide : ∀ x, followOn (opcodeByte 0xc0#8 x) = 0) n)⟩

theorem storeAbs16 (n : BitVec 3) (addr : Word16) : Statement (.storeAbs16 n addr) :=
  fun _ => ⟨rfl, congrArg (fun k => some (1 + k))
    ((by decide : ∀ x, followOn (opcodeByte 0xc8#8 x) = 2) n)⟩

theorem storeIndirect (n : BitVec 3) : Statement (.storeIndirect n) :=
  fun _ => ⟨rfl, congrArg (fun k => some (1 + k))
    ((by decide : ∀ x, followOn (opcodeByte 0xd0#8 x) = 0) n)⟩

theorem storeIndirectOffset (n : BitVec 3) (offs : Byte) : Statement (.storeIndirectOffset n offs) :=
  fun _ => ⟨rfl, congrArg (fun k => some (1 + k))
    ((by decide : ∀ x, followOn (opcodeByte 0xd8#8 x) = 1) n)⟩

theorem loadImm8 (n : BitVec 3) (imm : Byte) : Statement (.loadImm8 n imm) :=
  fun _ => ⟨rfl, congrArg (fun k => some (1 + k))
    ((by decide : ∀ x, followOn (opcodeByte 0xe0#8 x) = 1) n)⟩

theorem loadAbs16 (n : BitVec 3) (addr : Word16) : Statement (.loadAbs16 n addr) :=
  fun _ => ⟨rfl, congrArg (fun k => some (1 + k))
    ((by decide : ∀ x, followOn (opcodeByte 0xe8#8 x) = 2) n)⟩

theorem loadIndirect (n : BitVec 3) : Statement (.loadIndirect n) :=
  fun _ => ⟨rfl, congrArg (fun k => some (1 + k))
    ((by decide : ∀ x, followOn (opcodeByte 0xf0#8 x) = 0) n)⟩

theorem loadIndirectOffset (n : BitVec 3) (offs : Byte) : Statement (.loadIndirectOffset n offs) :=
  fun _ => ⟨rfl, congrArg (fun k => some (1 + k))
    ((by decide : ∀ x, followOn (opcodeByte 0xf8#8 x) = 1) n)⟩

end Sys2Proof.Laws.EncodedLength
end

