-- ==== Sys2Proof/Laws/State.lean ====
section
/-! SUPPORT. One lemma for each field and each update of the state. -/

namespace Sys2Proof.Machine

variable (s : State)

@[simp] theorem markCursor_stream : s.markCursor.stream = s.stream := rfl
@[simp] theorem markCursor_pos : s.markCursor.pos = s.pos := rfl
@[simp] theorem markCursor_mark : s.markCursor.mark = s.pos := rfl
@[simp] theorem markCursor_result : s.markCursor.result = s.result := rfl
@[simp] theorem markCursor_text : s.markCursor.text = s.text := rfl

@[simp] theorem advance_stream : s.advance.stream = s.stream := rfl
@[simp] theorem advance_pos : s.advance.pos = s.pos + 1 := rfl
@[simp] theorem advance_mark : s.advance.mark = s.mark := rfl
@[simp] theorem advance_result : s.advance.result = s.result := rfl
@[simp] theorem advance_text : s.advance.text = s.text := rfl

@[simp] theorem deliver_stream (ins : Instruction) : (s.deliver ins).stream = s.stream := rfl
@[simp] theorem deliver_pos (ins : Instruction) : (s.deliver ins).pos = s.pos := rfl
@[simp] theorem deliver_mark (ins : Instruction) : (s.deliver ins).mark = s.mark := rfl
@[simp] theorem deliver_result (ins : Instruction) :
    (s.deliver ins).result = some (.instruction { ins with byteLength := s.offset }) := rfl
@[simp] theorem deliver_text (ins : Instruction) :
    (s.deliver ins).text = render { ins with byteLength := s.offset } := rfl

@[simp] theorem raise_stream (e : DecodeError) : (s.raise e).stream = s.stream := rfl
@[simp] theorem raise_pos (e : DecodeError) : (s.raise e).pos = s.pos := rfl
@[simp] theorem raise_mark (e : DecodeError) : (s.raise e).mark = s.mark := rfl
@[simp] theorem raise_result (e : DecodeError) : (s.raise e).result = some (.error e) := rfl
@[simp] theorem raise_text (e : DecodeError) : (s.raise e).text = none := rfl

@[simp] theorem afterInstruction_stream (ins : Instruction) (t : Text) :
    (s.afterInstruction ins t).stream = s.stream := rfl
@[simp] theorem afterInstruction_pos (ins : Instruction) (t : Text) :
    (s.afterInstruction ins t).pos = s.pos + ins.byteLength := rfl
@[simp] theorem afterInstruction_mark (ins : Instruction) (t : Text) :
    (s.afterInstruction ins t).mark = s.pos := rfl
@[simp] theorem afterInstruction_result (ins : Instruction) (t : Text) :
    (s.afterInstruction ins t).result = some (.instruction ins) := rfl
@[simp] theorem afterInstruction_text (ins : Instruction) (t : Text) :
    (s.afterInstruction ins t).text = some t := rfl

@[simp] theorem afterError_stream (k : Nat) (e : DecodeError) :
    (s.afterError k e).stream = s.stream := rfl
@[simp] theorem afterError_pos (k : Nat) (e : DecodeError) :
    (s.afterError k e).pos = s.pos + k := rfl
@[simp] theorem afterError_mark (k : Nat) (e : DecodeError) : (s.afterError k e).mark = s.pos := rfl
@[simp] theorem afterError_result (k : Nat) (e : DecodeError) :
    (s.afterError k e).result = some (.error e) := rfl
@[simp] theorem afterError_text (k : Nat) (e : DecodeError) : (s.afterError k e).text = none := rfl

@[simp] theorem resetIdle_stream : s.resetIdle.stream = s.stream := rfl
@[simp] theorem resetIdle_pos : s.resetIdle.pos = s.pos := rfl
@[simp] theorem resetIdle_mark : s.resetIdle.mark = s.mark := rfl
@[simp] theorem resetIdle_result : s.resetIdle.result = none := rfl
@[simp] theorem resetIdle_text : s.resetIdle.text = none := rfl

@[simp] theorem withFetchWord_pos (nbits w : Nat) : (s.withFetchWord nbits w).pos = s.pos := rfl
@[simp] theorem withFetchWord_mark (nbits w : Nat) : (s.withFetchWord nbits w).mark = s.mark := rfl
@[simp] theorem withFetchWord_result (nbits w : Nat) :
    (s.withFetchWord nbits w).result = s.result := rfl
@[simp] theorem withFetchWord_text (nbits w : Nat) : (s.withFetchWord nbits w).text = s.text := rfl
@[simp] theorem withFetchWord_stream (nbits w : Nat) :
    (s.withFetchWord nbits w).stream = s.stream.writeBytes s.pos (tableBytes nbits w) := rfl

end Sys2Proof.Machine
end

