-- ==== Sys2Proof/Laws/Transaction.lean ====
section
/-! SUPPORT. What the shared operations of a decode transaction can do, said once: the reads, the
transaction of an instruction, of an invalid byte and of a short window. -/

namespace Sys2Proof.Machine

/-- `k` reads advance the cursor over the bytes that are there, and succeed if all `k` are. -/
theorem consume_eq (k : Nat) (s : State) :
    s.consume k = ({ s with pos := s.pos + s.available k }, s.available k == k) := by
  induction k generalizing s with
  | zero => simp [State.consume, State.available]
  | succ k ih =>
    simp only [State.consume, State.nextByte, State.available, peek_succ]
    cases s.stream.read s.pos with
    | none => simp
    | some b =>
      simp only [ih s.advance, State.available, advance_stream, advance_pos, List.length_cons]
      simp [State.advance, Nat.add_assoc, Nat.add_comm 1]

theorem available_le (s : State) (k : Nat) : s.available k ≤ k := peek_length_le _ _ _

@[simp] theorem available_markCursor (s : State) (k : Nat) :
    s.markCursor.available k = s.available k := rfl

/-- All the bytes an instruction has are there: the record, with its length, and its text. -/
theorem transact_complete (s : State) (len : Nat) (ins : Instruction) (text : Text)
    (h : s.available len = len) (ht : render { ins with byteLength := len } = some text) :
    s.transact len ins = s.afterInstruction { ins with byteLength := len } text := by
  simp only [State.transact, consume_eq, available_markCursor, h, beq_self_eq_true]
  simp [State.deliver, State.offset, State.markCursor, State.afterInstruction, ht]

/-- A byte of the instruction is missing: `Truncated`, after the bytes that are there. -/
theorem transact_truncated (s : State) (len : Nat) (ins : Instruction)
    (h : s.available len < len) :
    s.transact len ins = s.afterError (s.available len) .truncated := by
  have hne : (s.available len == len) = false := by simpa using Nat.ne_of_lt h
  simp only [State.transact, consume_eq, available_markCursor, hne]
  rfl

/-- A transaction ends in one of these two ways and no other. -/
theorem transact_cases (s : State) (len : Nat) (ins : Instruction) :
    (s.available len = len ∧ s.transact len ins = (s.markCursor.consume len).1.deliver ins) ∨
      (s.available len < len ∧ s.transact len ins = s.afterError (s.available len) .truncated) := by
  rcases Nat.lt_or_ge (s.available len) len with h | h
  · exact .inr ⟨h, transact_truncated s len ins h⟩
  · have h : s.available len = len := Nat.le_antisymm (available_le s len) h
    refine .inl ⟨h, ?_⟩
    simp only [State.transact, consume_eq, available_markCursor, h, beq_self_eq_true]

theorem transactInvalid_complete (s : State) (h : s.available 1 = 1) :
    s.transactInvalid = s.afterError 1 .invalidOpcode := by
  simp only [State.transactInvalid, consume_eq, available_markCursor, h, beq_self_eq_true]
  rfl

theorem transactInvalid_truncated (s : State) (h : s.available 1 < 1) :
    s.transactInvalid = s.afterError 0 .truncated := by
  have hz : s.available 1 = 0 := by omega
  simp only [State.transactInvalid, consume_eq, available_markCursor, hz]
  rfl

theorem transactTruncated_eq (s : State) :
    s.transactTruncated = s.afterError (s.available s.wanted) .truncated := by
  simp only [State.transactTruncated, consume_eq, available_markCursor]
  rfl

/-- All that a reset during a transaction does. -/
theorem resetDuring_eq (s : State) (k : Nat) :
    s.resetDuring k = { stream := s.stream, pos := s.pos + s.available (min k s.wanted),
                        mark := s.pos, result := none, text := none } := by
  simp only [State.resetDuring, consume_eq, available_markCursor]
  rfl

@[simp] theorem transact_stream (s : State) (len : Nat) (ins : Instruction) :
    (s.transact len ins).stream = s.stream := by
  rcases transact_cases s len ins with ⟨-, h⟩ | ⟨-, h⟩ <;> rw [h]
  · simp [consume_eq]
  · rfl

/-- The mark is at the cursor where the transaction began, however it ends. -/
@[simp] theorem transact_mark (s : State) (len : Nat) (ins : Instruction) :
    (s.transact len ins).mark = s.pos := by
  rcases transact_cases s len ins with ⟨-, h⟩ | ⟨-, h⟩ <;> rw [h]
  · simp [consume_eq]
  · rfl

end Sys2Proof.Machine
end

