-- ==== Sys2Proof/Tests/Slice0.lean ====
section
/-! SUPPORT. The author's own tests. The expected results come from the spec: the encodings of
30_encoding.md R46 to R51 and the vectors of 95_test_vectors.md, named in each docstring. After them,
for every obligation with hypotheses, a witness: a concrete state and operands that meet them. -/

namespace Sys2Proof.Tests

open Sys2Proof Sys2Proof.Machine

/-- The state after one step on a window, from a cursor at its first byte. -/
def stepped (s : State) : State :=
  match step s with
  | .next t => t
  | .fault _ => s
  | .refused _ => s

/-- What one step on a window leaves: the result, the text and the cursor's offset; `none` if it stops. -/
def after (window : List Byte) : Option (Option DecodeResult × Option Text × Nat) :=
  match step (State.onBytes window) with
  | .next t => some (t.result, t.text, t.offset)
  | .fault _ => none
  | .refused _ => none

/-- The same by the algorithm of R60 under REF_FAMILY_OP, which is the bijection number 0. -/
def afterRef (window : List Byte) : DecodeResult × Option Text × Nat :=
  match (State.onBytes window).decodeR60 (familyOpOf 0) with
  | (t, .instruction ins) => (.instruction ins, render ins, t.offset)
  | (t, .error e) => (.error e, none, t.offset)

/-! ### WellFormed: each check refuses an ill-formed term -/

theorem test_wellFormed_refuses_op5xHi_1 : (Instr.op5xHi 1#3).wellFormed = false := by decide
theorem test_wellFormed_refuses_op6xHi_1 : (Instr.op6xHi 1#3).wellFormed = false := by decide
theorem test_wellFormed_refuses_jccLowGroup_0 :
    (Instr.jccLowGroup 0#3 0x10#8).wellFormed = false := by decide
theorem test_wellFormed_refuses_jccLowGroup_1 :
    (Instr.jccLowGroup 1#3 0x10#8).wellFormed = false := by decide
theorem test_wellFormed_refuses_jccHighGroup_0 :
    (Instr.jccHighGroup 0#3 0x10#8).wellFormed = false := by decide
theorem test_wellFormed_refuses_jccHighGroup_1 :
    (Instr.jccHighGroup 1#3 0x10#8).wellFormed = false := by decide
theorem test_wellFormed_refuses_invalid_of_a_valid_byte :
    (Instr.invalid 0xb9#8).wellFormed = false := by decide

/-! ### Decode: a word of each constructor, written out from its encoding (R46, R48, R51, R63) -/

theorem test_decode_family00 : decode [0b00000101#8] = .ok (.family00 5#3, []) := by decide
theorem test_decode_family08 : decode [0b00001101#8] = .ok (.family08 5#3, []) := by decide
theorem test_decode_family10 : decode [0b00010101#8] = .ok (.family10 5#3, []) := by decide
theorem test_decode_family18 : decode [0b00011101#8] = .ok (.family18 5#3, []) := by decide
theorem test_decode_family20 : decode [0b00100101#8] = .ok (.family20 5#3, []) := by decide
theorem test_decode_xor : decode [0b00101101#8] = .ok (.xor 5#3, []) := by decide
theorem test_decode_family30 : decode [0b00110101#8] = .ok (.family30 5#3, []) := by decide
theorem test_decode_family38 : decode [0b00111101#8] = .ok (.family38 5#3, []) := by decide
theorem test_decode_family40 : decode [0b01000101#8] = .ok (.family40 5#3, []) := by decide
theorem test_decode_sbc : decode [0b01001101#8] = .ok (.sbc 5#3, []) := by decide
theorem test_decode_family50 : decode [0b01010101#8] = .ok (.family50 5#3, []) := by decide
theorem test_decode_op5xHi : decode [0b01011110#8] = .ok (.op5xHi 6#3, []) := by decide
theorem test_decode_scf : decode [0b01011001#8] = .ok (.scf, []) := by decide
theorem test_decode_bit : decode [0b01100001#8] = .ok (.bit 1#3, []) := by decide
theorem test_decode_op6xHi : decode [0b01101100#8] = .ok (.op6xHi 4#3, []) := by decide
theorem test_decode_ccf : decode [0b01101001#8] = .ok (.ccf, []) := by decide
theorem test_decode_movAccToReg : decode [0b01110011#8] = .ok (.movAccToReg 3#3, []) := by decide
theorem test_decode_cmp : decode [0b01111110#8] = .ok (.cmp 6#3, []) := by decide
theorem test_decode_push : decode [0b10000100#8] = .ok (.push 4#3, []) := by decide
theorem test_decode_pop : decode [0b10001001#8] = .ok (.pop 1#3, []) := by decide
theorem test_decode_jnz : decode [0b10010000#8, 0b01010000#8] = .ok (.jnz 0x50#8, []) := by decide
theorem test_decode_jnc : decode [0b10010001#8, 0b11111110#8] = .ok (.jnc 0xfe#8, []) := by decide
theorem test_decode_jccLowGroup : decode [0b10010110#8, 0b00010000#8] = .ok (.jccLowGroup 6#3 0x10#8, []) := by decide
theorem test_decode_jz : decode [0b10011000#8, 0b00000001#8] = .ok (.jz 0x01#8, []) := by decide
theorem test_decode_jc : decode [0b10011001#8, 0b00001100#8] = .ok (.jc 0x0c#8, []) := by decide
theorem test_decode_jccHighGroup : decode [0b10011011#8, 0b10000001#8] = .ok (.jccHighGroup 3#3 0x81#8, []) := by decide
theorem test_decode_invalid : decode [0b10111011#8] = .ok (.invalid 0xbb#8, []) := by decide
theorem test_decode_ret : decode [0b10111001#8] = .ok (.ret, []) := by decide
theorem test_decode_iret : decode [0b10111010#8] = .ok (.iret, []) := by decide
theorem test_decode_jmp : decode [0b10111100#8, 0b10001010#8, 0b11011001#8] = .ok (.jmp 0xd98a#16, []) := by decide
theorem test_decode_call : decode [0b10111111#8, 0b00000000#8, 0b10000000#8] = .ok (.call 0x8000#16, []) := by decide
theorem test_decode_incW : decode [0b11000111#8] = .ok (.incW 7#3, []) := by decide
theorem test_decode_storeAbs16 : decode [0b11001001#8, 0b11110010#8, 0b11101101#8] = .ok (.storeAbs16 1#3 0xedf2#16, []) := by decide
theorem test_decode_storeIndirect : decode [0b11010110#8] = .ok (.storeIndirect 6#3, []) := by decide
theorem test_decode_storeIndirectOffset : decode [0b11011100#8, 0b00000010#8] = .ok (.storeIndirectOffset 4#3 0x02#8, []) := by decide
theorem test_decode_loadImm8 : decode [0b11100100#8, 0b00001110#8] = .ok (.loadImm8 4#3 0x0e#8, []) := by decide
theorem test_decode_loadAbs16 : decode [0b11101110#8, 0b00000001#8, 0b00000010#8] = .ok (.loadAbs16 6#3 0x0201#16, []) := by decide
theorem test_decode_loadIndirect : decode [0b11110011#8] = .ok (.loadIndirect 3#3, []) := by decide
theorem test_decode_loadIndirectOffset : decode [0b11111001#8, 0b00001010#8] = .ok (.loadIndirectOffset 1#3 0x0a#8, []) := by decide

theorem test_decode_too_short : decode [0b10111100#8, 0x8a#8] = .error .truncated := by decide

/-- The opcode table's bit numbering: the first byte is the least significant. -/
theorem test_decodeTableWord_jmp : decodeTableWord 24 0xd98abc = some (.jmp 0xd98a#16) := by decide

/-! ### One step on each instruction -/

/-- S6 of 95_test_vectors.md. -/
theorem test_xor :
    after [0x29#8] =
      some (some (.instruction ⟨.xor, .register 1, .empty, 1, 1⟩),
        some (lit "r0 ^= r1"), 1) := by decide

/-- V-R25 of 95_test_vectors.md. -/
theorem test_xor_trailing_bytes :
    after [0x2b#8, 0xff#8, 0xff#8] =
      some (some (.instruction ⟨.xor, .register 3, .empty, 1, 1⟩),
        some (lit "r0 ^= r3"), 1) := by decide

/-- S7 of 95_test_vectors.md. -/
theorem test_sbc :
    after [0x49#8] =
      some (some (.instruction ⟨.sbc, .register 1, .empty, 1, 1⟩),
        some (lit "sbc r0, r1"), 1) := by decide

/-- V-R22 of 95_test_vectors.md. -/
theorem test_sbc_r7 :
    after [0x4f#8] =
      some (some (.instruction ⟨.sbc, .register 7, .empty, 1, 1⟩),
        some (lit "sbc r0, r7"), 1) := by decide

/-- V-M2 of 95_test_vectors.md. -/
theorem test_movAccToReg :
    after [0x73#8] =
      some (some (.instruction ⟨.movAccToReg, .register 3, .empty, 1, 1⟩),
        some (lit "r3 <- r0"), 1) := by decide

/-- V-M6 of 95_test_vectors.md. -/
theorem test_cmp :
    after [0x7f#8] =
      some (some (.instruction ⟨.cmp, .register 7, .empty, 1, 1⟩),
        some (lit "cmp r0, r7"), 1) := by decide

/-- S11 of 95_test_vectors.md. -/
theorem test_push :
    after [0x84#8] =
      some (some (.instruction ⟨.push, .register 4, .empty, 1, 1⟩),
        some (lit "push r4"), 1) := by decide

/-- V-M11 of 95_test_vectors.md. -/
theorem test_pop :
    after [0x8b#8] =
      some (some (.instruction ⟨.pop, .register 3, .empty, 1, 1⟩),
        some (lit "pop r3"), 1) := by decide

/-- S12 of 95_test_vectors.md. -/
theorem test_incW :
    after [0xc4#8] =
      some (some (.instruction ⟨.incW, .registerPair 4, .empty, 1, 1⟩),
        some (lit "incw r4:r5"), 1) := by decide

/-- V-M20 of 95_test_vectors.md. -/
theorem test_incW_odd_pair_r8 :
    after [0xc7#8] =
      some (some (.instruction ⟨.incW, .registerPair 7, .empty, 1, 1⟩),
        some (lit "incw r7:r8"), 1) := by decide

/-- V-F1 of 95_test_vectors.md. -/
theorem test_op5xHi_zero :
    after [0x58#8] =
      some (some (.instruction ⟨.op5xHi, .imm8 0x00#8, .empty, 1, 1⟩),
        some (lit "op5xhi 0x00"), 1) := by decide

/-- S8 of 95_test_vectors.md. -/
theorem test_scf :
    after [0x59#8] =
      some (some (.instruction ⟨.scf, .empty, .empty, 0, 1⟩),
        some (lit "scf"), 1) := by decide

/-- S9 of 95_test_vectors.md. -/
theorem test_op5xHi :
    after [0x5a#8] =
      some (some (.instruction ⟨.op5xHi, .imm8 0x02#8, .empty, 1, 1⟩),
        some (lit "op5xhi 0x02"), 1) := by decide

/-- V-F10 of 95_test_vectors.md. -/
theorem test_bit :
    after [0x61#8] =
      some (some (.instruction ⟨.bit, .imm8 0x01#8, .empty, 1, 1⟩),
        some (lit "bit 0x01"), 1) := by decide

/-- V-F19 of 95_test_vectors.md. -/
theorem test_op6xHi :
    after [0x6a#8] =
      some (some (.instruction ⟨.op6xHi, .imm8 0x02#8, .empty, 1, 1⟩),
        some (lit "op6xhi 0x02"), 1) := by decide

/-- V-F18 of 95_test_vectors.md. -/
theorem test_ccf :
    after [0x69#8] =
      some (some (.instruction ⟨.ccf, .empty, .empty, 0, 1⟩),
        some (lit "ccf"), 1) := by decide

/-- S10 of 95_test_vectors.md. -/
theorem test_jnz :
    after [0x90#8, 0x50#8] =
      some (some (.instruction ⟨.jnz, .relativeBranch 80, .empty, 1, 2⟩),
        some (lit "jnz $+0x50"), 2) := by decide

/-- V-J2 of 95_test_vectors.md. -/
theorem test_jnc :
    after [0x91#8, 0x7f#8] =
      some (some (.instruction ⟨.jnc, .relativeBranch 127, .empty, 1, 2⟩),
        some (lit "jnc $+0x7f"), 2) := by decide

/-- V-J3 of 95_test_vectors.md. -/
theorem test_jccLowGroup :
    after [0x92#8, 0x80#8] =
      some (some (.instruction ⟨.jccLowGroup, .imm8 0x02#8, .relativeBranch (-128), 2, 2⟩),
        some (lit "jcc.lo.2 $-0x80"), 2) := by decide

/-- V-J8 of 95_test_vectors.md. -/
theorem test_jccLowGroup_low7 :
    after [0x97#8, 0xf1#8] =
      some (some (.instruction ⟨.jccLowGroup, .imm8 0x07#8, .relativeBranch (-15), 2, 2⟩),
        some (lit "jcc.lo.7 $-0xf"), 2) := by decide

/-- V-J9 of 95_test_vectors.md. -/
theorem test_jz :
    after [0x98#8, 0xf0#8] =
      some (some (.instruction ⟨.jz, .relativeBranch (-16), .empty, 1, 2⟩),
        some (lit "jz $-0x10"), 2) := by decide

/-- V-J10 of 95_test_vectors.md. -/
theorem test_jc :
    after [0x99#8, 0x01#8] =
      some (some (.instruction ⟨.jc, .relativeBranch 1, .empty, 1, 2⟩),
        some (lit "jc $+0x1"), 2) := by decide

/-- V-J11 of 95_test_vectors.md. -/
theorem test_jccHighGroup :
    after [0x9a#8, 0x50#8] =
      some (some (.instruction ⟨.jccHighGroup, .imm8 0x02#8, .relativeBranch 80, 2, 2⟩),
        some (lit "jcc.hi.2 $+0x50"), 2) := by decide

/-- V-J12 of 95_test_vectors.md. -/
theorem test_jccHighGroup_low3 :
    after [0x9b#8, 0x81#8] =
      some (some (.instruction ⟨.jccHighGroup, .imm8 0x03#8, .relativeBranch (-127), 2, 2⟩),
        some (lit "jcc.hi.3 $-0x7f"), 2) := by decide

/-- V-J18 of 95_test_vectors.md. -/
theorem test_ret :
    after [0xb9#8, 0x34#8, 0x12#8] =
      some (some (.instruction ⟨.ret, .empty, .empty, 0, 1⟩),
        some (lit "ret"), 1) := by decide

/-- V-J19 of 95_test_vectors.md. -/
theorem test_iret :
    after [0xba#8, 0x34#8, 0x12#8] =
      some (some (.instruction ⟨.iret, .empty, .empty, 0, 1⟩),
        some (lit "iret"), 1) := by decide

/-- S4 of 95_test_vectors.md. -/
theorem test_jmp :
    after [0xbc#8, 0x8a#8, 0xd9#8] =
      some (some (.instruction ⟨.jmp, .imm16 0xd98a#16, .empty, 1, 3⟩),
        some (lit "jmp 0xd98a"), 3) := by decide

/-- V-J27 of 95_test_vectors.md. -/
theorem test_call :
    after [0xbf#8, 0x00#8, 0x80#8] =
      some (some (.instruction ⟨.call, .imm16 0x8000#16, .empty, 1, 3⟩),
        some (lit "call 0x8000"), 3) := by decide

/-- S1 of 95_test_vectors.md. -/
theorem test_storeAbs16 :
    after [0xc9#8, 0xf2#8, 0xed#8] =
      some (some (.instruction ⟨.storeAbs16, .register 1, .absoluteMem 0xedf2#16, 2, 3⟩),
        some (lit "[0xedf2] <- r1"), 3) := by decide

/-- V-L5 of 95_test_vectors.md. -/
theorem test_storeIndirect :
    after [0xd1#8] =
      some (some (.instruction ⟨.storeIndirect, .indirectMem 1, .empty, 1, 1⟩),
        some (lit "[r1:r2] <- r0"), 1) := by decide

/-- V-L10 of 95_test_vectors.md. -/
theorem test_storeIndirectOffset :
    after [0xdf#8, 0xff#8] =
      some (some (.instruction ⟨.storeIndirectOffset, .indirectMemOffset 7 0xff#8, .empty, 1, 2⟩),
        some (lit "[r7:r8 + 0xff] <- r0"), 2) := by decide

/-- V-L7 of 95_test_vectors.md. -/
theorem test_storeIndirectOffset_zero :
    after [0xd8#8, 0x00#8] =
      some (some (.instruction ⟨.storeIndirectOffset, .indirectMemOffset 0 0x00#8, .empty, 1, 2⟩),
        some (lit "[r0:r1 + 0x0] <- r0"), 2) := by decide

/-- S3 of 95_test_vectors.md. -/
theorem test_loadImm8 :
    after [0xe4#8, 0x0e#8] =
      some (some (.instruction ⟨.loadImm8, .register 4, .imm8 0x0e#8, 2, 2⟩),
        some (lit "r4 <- 0x0e"), 2) := by decide

/-- V-L14 of 95_test_vectors.md. -/
theorem test_loadImm8_unsigned :
    after [0xe3#8, 0x80#8] =
      some (some (.instruction ⟨.loadImm8, .register 3, .imm8 0x80#8, 2, 2⟩),
        some (lit "r3 <- 0x80"), 2) := by decide

/-- V-L17 of 95_test_vectors.md. -/
theorem test_loadAbs16 :
    after [0xe9#8, 0xf2#8, 0xed#8] =
      some (some (.instruction ⟨.loadAbs16, .register 1, .absoluteMem 0xedf2#16, 2, 3⟩),
        some (lit "r1 <- [0xedf2]"), 3) := by decide

/-- V-L20 of 95_test_vectors.md. -/
theorem test_loadIndirect :
    after [0xf7#8] =
      some (some (.instruction ⟨.loadIndirect, .indirectMem 7, .empty, 1, 1⟩),
        some (lit "r0 <- [r7:r8]"), 1) := by decide

/-- V-L24 of 95_test_vectors.md. -/
theorem test_loadIndirectOffset :
    after [0xf9#8, 0x0a#8] =
      some (some (.instruction ⟨.loadIndirectOffset, .indirectMemOffset 1 0x0a#8, .empty, 1, 2⟩),
        some (lit "r0 <- [r1:r2 + 0xa]"), 2) := by decide

/-- V-L23 of 95_test_vectors.md. -/
theorem test_loadIndirectOffset_unsigned :
    after [0xff#8, 0xff#8] =
      some (some (.instruction ⟨.loadIndirectOffset, .indirectMemOffset 7 0xff#8, .empty, 1, 2⟩),
        some (lit "r0 <- [r7:r8 + 0xff]"), 2) := by decide

/-- V-I1 of 95_test_vectors.md. -/
theorem test_invalid_first :
    after [0xa0#8] = some (some (.error .invalidOpcode), none, 1) := by decide

/-- V-I8 of 95_test_vectors.md. -/
theorem test_invalid_between_iret_and_jmp :
    after [0xbb#8, 0x8a#8, 0xd9#8] = some (some (.error .invalidOpcode), none, 1) := by decide

/-! The families 0x00 to 0x50 that the source does not pin. In the model itself FAMILY_OP is open: a step
gives the record with whatever opcode it names. -/

theorem test_family00_open : (stepped (State.onBytes [0x07#8])).result =
    some (.instruction ⟨familyOp .f00, .register 7, .empty, 1, 1⟩) := rfl
theorem test_family08_open : (stepped (State.onBytes [0x0f#8])).result =
    some (.instruction ⟨familyOp .f08, .register 7, .empty, 1, 1⟩) := rfl
theorem test_family10_open : (stepped (State.onBytes [0x10#8])).result =
    some (.instruction ⟨familyOp .f10, .register 0, .empty, 1, 1⟩) := rfl
theorem test_family18_open : (stepped (State.onBytes [0x1a#8])).result =
    some (.instruction ⟨familyOp .f18, .register 2, .empty, 1, 1⟩) := rfl
theorem test_family20_open : (stepped (State.onBytes [0x27#8])).result =
    some (.instruction ⟨familyOp .f20, .register 7, .empty, 1, 1⟩) := rfl
theorem test_family30_open : (stepped (State.onBytes [0x31#8])).result =
    some (.instruction ⟨familyOp .f30, .register 1, .empty, 1, 1⟩) := rfl
theorem test_family38_open : (stepped (State.onBytes [0x3b#8])).result =
    some (.instruction ⟨familyOp .f38, .register 3, .empty, 1, 1⟩) := rfl
theorem test_family40_open : (stepped (State.onBytes [0x44#8])).result =
    some (.instruction ⟨familyOp .f40, .register 4, .empty, 1, 1⟩) := rfl
theorem test_family50_open : (stepped (State.onBytes [0x57#8])).result =
    some (.instruction ⟨familyOp .f50, .register 7, .empty, 1, 1⟩) := rfl

/-- V-R2 of 95_test_vectors.md, under its placeholder REF_FAMILY_OP. -/
theorem test_family00 :
    afterRef [0x07#8] =
      (.instruction ⟨.adc, .register 7, .empty, 1, 1⟩, some (lit "adc r0, r7"), 1) := by decide

/-- V-R4 of 95_test_vectors.md, under its placeholder REF_FAMILY_OP. -/
theorem test_family08 :
    afterRef [0x0f#8] =
      (.instruction ⟨.or, .register 7, .empty, 1, 1⟩, some (lit "r0 |= r7"), 1) := by decide

/-- V-R6 of 95_test_vectors.md, under its placeholder REF_FAMILY_OP. -/
theorem test_family10 :
    afterRef [0x17#8] =
      (.instruction ⟨.and, .register 7, .empty, 1, 1⟩, some (lit "r0 &= r7"), 1) := by decide

/-- V-R8 of 95_test_vectors.md, under its placeholder REF_FAMILY_OP. -/
theorem test_family18 :
    afterRef [0x1f#8] =
      (.instruction ⟨.add, .register 7, .empty, 1, 1⟩, some (lit "r0 += r7"), 1) := by decide

/-- V-R10 of 95_test_vectors.md, under its placeholder REF_FAMILY_OP. -/
theorem test_family20 :
    afterRef [0x27#8] =
      (.instruction ⟨.rcl, .register 7, .empty, 1, 1⟩, some (lit "rcl r7"), 1) := by decide

/-- V-R15 of 95_test_vectors.md, under its placeholder REF_FAMILY_OP. -/
theorem test_family30 :
    afterRef [0x37#8] =
      (.instruction ⟨.rcr, .register 7, .empty, 1, 1⟩, some (lit "rcr r7"), 1) := by decide

/-- V-R17 of 95_test_vectors.md, under its placeholder REF_FAMILY_OP. -/
theorem test_family38 :
    afterRef [0x3f#8] =
      (.instruction ⟨.inc, .register 7, .empty, 1, 1⟩, some (lit "inc r7"), 1) := by decide

/-- V-R19 of 95_test_vectors.md, under its placeholder REF_FAMILY_OP. -/
theorem test_family40 :
    afterRef [0x47#8] =
      (.instruction ⟨.dec, .register 7, .empty, 1, 1⟩, some (lit "dec r7"), 1) := by decide

/-- V-R24 of 95_test_vectors.md, under its placeholder REF_FAMILY_OP. -/
theorem test_family50 :
    afterRef [0x57#8] =
      (.instruction ⟨.movRegToAcc, .register 7, .empty, 1, 1⟩, some (lit "r0 <- r7"), 1) := by decide

/-! ### Errors and consecutive transactions -/

/-- B1 of 95_test_vectors.md. -/
theorem test_truncated_empty :
    after [] = some (some (.error .truncated), none, 0) := by decide

/-- B3 of 95_test_vectors.md. -/
theorem test_truncated_jmp_two_bytes :
    after [0xbc#8, 0x8a#8] = some (some (.error .truncated), none, 2) := by decide

/-- V-T10 of 95_test_vectors.md. -/
theorem test_truncated_storeAbs16 :
    after [0xc9#8, 0xf2#8] = some (some (.error .truncated), none, 2) := by decide

/-- V-T7 of 95_test_vectors.md. -/
theorem test_truncated_call :
    after [0xbf#8] = some (some (.error .truncated), none, 1) := by decide

/-- V-D4: after `InvalidOpcode` the next transaction has its own mark. -/
theorem test_transactions_are_independent :
    let t := stepped (stepped (State.onBytes [0xa0#8, 0xb9#8]))
    t.result = some (.instruction ⟨.ret, .empty, .empty, 0, 1⟩) ∧ t.mark = 1 ∧ t.pos = 2 := by decide

/-- V-D5: `byte_length` counts from the mark, not from the beginning of the window. -/
theorem test_length_counts_from_the_mark :
    let t := stepped (stepped (State.onBytes [0x81#8, 0xe4#8, 0x0e#8]))
    t.result = some (.instruction ⟨.loadImm8, .register 4, .imm8 0x0e#8, 2, 2⟩) ∧ t.pos = 3 := by
  decide

/-- R27, R210: after a reset in the middle of `jmp` there is nothing to read. -/
theorem test_reset_after_one_read :
    (State.onBytes [0xbc#8, 0x8a#8, 0xd9#8]).resetDuring 1 =
      { State.onBytes [0xbc#8, 0x8a#8, 0xd9#8] with pos := 1 } := by decide

/-- R34: a reset never comes after a read that the transaction does not make. -/
theorem test_reset_after_the_last_read :
    ((State.onBytes [0x29#8, 0x29#8, 0x29#8]).resetDuring 3).pos = 1 := by decide

/-- P4: a reserved byte stops the sweep after one row. -/
theorem test_sweep_stops_at_a_reserved_byte :
    let report := (State.onBytes [0x84#8, 0xa5#8, 0xb9#8]).sweepAll
    report.ending = .invalidOpcode ∧ report.final.pos = 2 ∧
      report.rows.map (fun row => (row.position, row.ins)) =
        [(0, ⟨.push, .register 4, .empty, 1, 1⟩)] := by decide

/-! ### Accessors, texts of operands, branch targets -/

/-- V-A5. -/
theorem test_accessors :
    [0, 1, 2, 100].map (operandOf ⟨.jccLowGroup, .imm8 3#8, .relativeBranch 16, 2, 2⟩) =
      [some (.imm8 3#8), some (.relativeBranch 16), none, none] := by decide

/-- V-O10, V-O12, V-O13. -/
theorem test_displacement_texts :
    [0, -1, -128].map displacementText = [lit "$+0x0", lit "$-0x1", lit "$-0x80"] := by decide

/-- V-B1, V-B5, V-B6, V-B7, V-B8 (the addresses and displacements). -/
theorem test_relative_targets :
    [(0x1000#16, 80), (0x1000#16, -128), (0xfffe#16, 0), (0x0000#16, -128), (0xff80#16, 127)].map
        (fun p => transferTarget p.1 ⟨.jz, .relativeBranch p.2, .empty, 1, 2⟩) =
      [some 0x1052#16, some 0x0f82#16, some 0x0000#16, some 0xff82#16, some 0x0001#16] := by decide

/-- V-B9. -/
theorem test_absolute_target :
    transferTarget 0#16 ⟨.jmp, .imm16 0xd98a#16, .empty, 1, 3⟩ = some 0xd98a#16 := by decide

/-- R127: within 16 bits the offset is added unsigned. -/
theorem test_offset_address : offsetAddress 0x12f0#16 0xff#8 = 0x13ef#16 := by decide

/-! ### Witnesses: every hypothesis of an obligation is met somewhere -/

/-- Windows for `MeetsRule`: as many bytes as an instruction of 1, 2 or 3 bytes has, and fewer. -/
theorem witness_windows :
    (State.onBytes [0x84#8]).available 1 = 1 ∧ State.reset.available 1 < 1 ∧
    (State.onBytes [0x90#8, 0x50#8]).available 2 = 2 ∧ (State.onBytes [0x90#8]).available 2 < 2 ∧
    (State.onBytes [0xbc#8, 0x8a#8, 0xd9#8]).available 3 = 3 ∧
    (State.onBytes [0xbc#8, 0x8a#8]).available 3 < 3 := by decide

theorem witness_DecodeOfEncodeIsTheInstruction :
    ∀ i ∈ [Instr.op5xHi 0#3, .op6xHi 7#3, .jccLowGroup 2#3 0x80#8, .jccHighGroup 7#3 0#8,
      .invalid 0xa0#8, .invalid 0xbe#8, .jmp 0xffff#16], i.wellFormed = true := by decide

theorem witness_EncodeOfDecodeIsTheBytes :
    decode [0xbc#8, 0x8a#8, 0xd9#8, 0x84#8] = .ok (.jmp 0xd98a#16, [0x84#8]) := by decide

/-- A boundary byte of every interval of R45: the step answers a next state, with an Instruction. -/
theorem witness_LengthFollowsFromTheOpcodeByte :
    ∀ op ∈ [0x59#8, 0x8f#8, 0x90#8, 0x9f#8, 0xb9#8, 0xba#8, 0xbc#8, 0xbf#8, 0xc0#8, 0xc7#8, 0xc8#8,
        0xcf#8, 0xd0#8, 0xd7#8, 0xd8#8, 0xe7#8, 0xe8#8, 0xef#8, 0xf0#8, 0xf7#8, 0xf8#8, 0xff#8],
      let s := State.onBytes [op, 0#8, 0#8]
      s.stream.read s.pos = some op ∧ step s = .next (stepped s) ∧
        ∃ ins, (stepped s).result = some (.instruction ins) := by
  intro op h
  simp only [List.mem_cons, List.not_mem_nil, or_false] at h
  rcases h with rfl | rfl | rfl | rfl | rfl | rfl | rfl | rfl | rfl | rfl | rfl | rfl | rfl | rfl |
    rfl | rfl | rfl | rfl | rfl | rfl | rfl | rfl <;> exact ⟨rfl, rfl, _, rfl⟩

theorem witness_LengthFollowsFromTheOpcodeByte_invalid :
    ∀ op ∈ [0xa0#8, 0xb8#8, 0xbb#8, 0xbd#8, 0xbe#8],
      let s := State.onBytes [op]
      s.stream.read s.pos = some op ∧ (stepped s).result = some (.error .invalidOpcode) ∧
        (0xa0#8 ≤ op ∧ op ≤ 0xb8#8 ∨ op ∈ [0xbb#8, 0xbd#8, 0xbe#8]) := by decide

theorem witness_IrregularFamiliesAreFive :
    8 * (31 : Fin 32).val ∉ [0x58, 0x68, 0x90, 0x98, 0xb8, 0xa0, 0xa8, 0xb0] := by decide

theorem witness_CursorOperations :
    (State.onBytes [0x84#8]).stream.read 0 = some 0x84#8 ∧
    (State.onBytes [0x84#8]).mark ≤ (State.onBytes [0x84#8]).pos ∧
    State.reset.stream.read State.reset.pos = none := by decide

theorem witness_FamilyOpIsAPinnedBijection :
    familyOp .f00 = familyOp .f00 ∧
    Opcode.adc ∈ [Opcode.adc, .or, .and, .xor, .add, .sbc, .rcl, .rcr, .inc, .dec, .movRegToAcc] :=
  ⟨rfl, by decide⟩

/-- REF_FAMILY_OP meets the four hypotheses. -/
theorem witness_EveryAllowedFamilyOpHasANumber :
    let g := familyOpOf 0
    g .f28 = .xor ∧ g .f48 = .sbc ∧ (∀ f h, g f = g h → f = h) ∧
      ∀ f, g f ∈ [Opcode.adc, .or, .and, .xor, .add, .sbc, .rcl, .rcr, .inc, .dec, .movRegToAcc] := by
  refine ⟨by decide, by decide, fun f h => ?_, fun f => ?_⟩
  · cases f <;> cases h <;> decide
  · cases f <;> decide

theorem witness_OpenFamiliesMeetTheirRule :
    (State.onBytes [familyByte .f50 ||| (7#3).setWidth 8]).available 1 = 1 ∧
    State.reset.available 1 < 1 := by decide

theorem witness_ElevenRegisterFormsMeetTheirRules :
    (Opcode.movRegToAcc, "r0 <- ") ∈ [(Opcode.adc, "adc r0, "), (.or, "r0 |= "), (.and, "r0 &= "),
      (.xor, "r0 ^= "), (.add, "r0 += "), (.sbc, "sbc r0, "), (.rcl, "rcl "), (.rcr, "rcr "),
      (.inc, "inc "), (.dec, "dec "), (.movRegToAcc, "r0 <- ")] := by decide

theorem witness_ScfCcfAndOp5xHiMeetTheirRules :
    0#3 ≠ 1#3 ∧ 2#3 ≠ 1#3 ∧ (State.onBytes [0b01011000#8 ||| (2#3).setWidth 8]).available 1 = 1 := by
  decide

theorem witness_BitAndOp6xHiMeetTheirRules :
    0#3 ≠ 1#3 ∧ 7#3 ≠ 1#3 ∧ (State.onBytes [0b01101000#8 ||| (7#3).setWidth 8]).available 1 = 1 := by
  decide

theorem witness_JccGroupsMeetTheirRules :
    2#3 ≤ 2#3 ∧ 2#3 ≤ 7#3 ∧
    (State.onBytes [0b10010000#8 ||| (2#3).setWidth 8, 0x80#8]).available 2 = 2 ∧
    (State.onBytes [0b10011000#8 ||| (7#3).setWidth 8]).available 2 < 2 := by decide

theorem witness_InvalidByteTakesInvalidOpcode :
    (∀ op ∈ [0xa0#8, 0xb7#8, 0xb8#8, 0xbb#8, 0xbd#8, 0xbe#8],
      isInvalidByte op = true ∧ (State.onBytes [op]).available 1 = 1) ∧
    State.reset.available 1 < 1 := by decide

theorem witness_ShortWindowTakesTruncated :
    (State.onBytes [0xbc#8, 0x8a#8]).available (Instr.jmp 0xd98a#16).length <
        (Instr.jmp 0xd98a#16).length ∧
    State.reset.available Instr.ret.length < Instr.ret.length := by decide

theorem witness_NoInstructionWritesTheStream :
    exec .ret (State.onBytes [0xb9#8]) = .next (stepped (State.onBytes [0xb9#8])) ∧
    step (State.onBytes [0xbc#8]) = .next (stepped (State.onBytes [0xbc#8])) := ⟨rfl, rfl⟩

theorem witness_StepRunsTheDecodedInstruction :
    decode (State.onBytes [0x90#8, 0x50#8]).ahead = .ok (.jnz 0x50#8, []) ∧
    decode (State.onBytes [0x90#8]).ahead = .error .truncated ∧
    decode State.reset.ahead = .error .truncated := by decide

theorem witness_EveryStepKeepsTheInvariant :
    (State.onBytes [0x84#8, 0xa5#8]).Inv ∧
    step (State.onBytes [0x84#8, 0xa5#8]) = .next (stepped (State.onBytes [0x84#8, 0xa5#8])) :=
  ⟨⟨by decide, by decide, rfl⟩, rfl⟩

theorem witness_InstructionDependsOnItsBytesOnly :
    let s := State.onBytes [0xe4#8, 0x0e#8]
    let t := (State.onBytes [0x81#8, 0xe4#8, 0x0e#8, 0xff#8]).seek 1
    step s = .next (stepped s) ∧
    (stepped s).result = some (.instruction ⟨.loadImm8, .register 4, .imm8 0x0e#8, 2, 2⟩) ∧
    agreeOnNext 2 s t :=
  ⟨rfl, rfl, by unfold agreeOnNext; decide⟩

theorem witness_InvalidOpcodeExactly :
    (∀ op ∈ [0xa0#8, 0xb7#8, 0xb8#8, 0xbe#8],
      (State.onBytes [op]).stream.read 0 = some op ∧
        (stepped (State.onBytes [op])).result = some (.error .invalidOpcode)) ∧
    (∀ op ∈ [0x9f#8, 0xb9#8, 0xbf#8, 0xc0#8],
      (State.onBytes [op]).stream.read 0 = some op ∧
        (stepped (State.onBytes [op])).result ≠ some (.error .invalidOpcode)) := by decide

/-- Each clause at the boundaries of its bytes and of the window. -/
theorem witness_TruncatedExactly :
    State.reset.available 1 = 0 ∧
    (∀ op ∈ [0xa0#8, 0xb8#8, 0xbb#8, 0xbe#8],
      (State.onBytes [op]).stream.read 0 = some op ∧ (State.onBytes [op]).available 2 = 1) ∧
    (∀ op ∈ [0x90#8, 0x9f#8, 0xd8#8, 0xe7#8, 0xf8#8, 0xff#8],
      (State.onBytes [op]).stream.read 0 = some op ∧ (State.onBytes [op]).available 2 = 1 ∧
        (State.onBytes [op, 0#8]).available 2 = 2) ∧
    (∀ op ∈ [0xbc#8, 0xbf#8, 0xc8#8, 0xcf#8, 0xe8#8, 0xef#8],
      (State.onBytes [op]).available 3 = 1 ∧ (State.onBytes [op, 0#8]).available 3 = 2 ∧
        (State.onBytes [op, 0#8, 0#8]).available 3 = 3) ∧
    (∀ op ∈ [0x00#8, 0x8f#8, 0xb9#8, 0xc0#8, 0xd7#8, 0xf7#8],
      (State.onBytes [op]).stream.read 0 = some op) := by decide

theorem witness_CursorAfterEachOutcome :
    (stepped (State.onBytes [0xb9#8])).result =
      some (.instruction ⟨.ret, .empty, .empty, 0, 1⟩) ∧
    (stepped (State.onBytes [0xa0#8])).result = some (.error .invalidOpcode) ∧
    (stepped (State.onBytes [0xbc#8, 0#8])).result = some (.error .truncated) ∧
    step (State.onBytes [0xbc#8, 0#8]) = .next (stepped (State.onBytes [0xbc#8, 0#8])) :=
  ⟨by decide, by decide, by decide, rfl⟩

theorem witness_TruncatedStaysTruncated :
    step (State.onBytes [0xbc#8]) = .next (stepped (State.onBytes [0xbc#8])) ∧
    (stepped (State.onBytes [0xbc#8])).result = some (.error .truncated) := ⟨rfl, by decide⟩

theorem witness_DecodedInstructionsAreValid :
    step (State.onBytes [0x84#8]) = .next (stepped (State.onBytes [0x84#8])) ∧
    (stepped (State.onBytes [0x84#8])).result =
      some (.instruction ⟨.push, .register 4, .empty, 1, 1⟩) := ⟨rfl, by decide⟩

theorem witness_FetchWordIsRunNext :
    decodeTableWord 8 0x84 = some (.push 4#3) ∧ decodeTableWord 16 0x5090 = some (.jnz 0x50#8) ∧
    decodeTableWord 24 0xd98abc = some (.jmp 0xd98a#16) := by decide

theorem witness_OperandAccessorContract :
    let ret : Instruction := ⟨.ret, .empty, .empty, 0, 1⟩
    let store : Instruction := ⟨.storeAbs16, .register 1, .absoluteMem 0xedf2#16, 2, 3⟩
    isValid ret = true ∧ ret.operandCount ≤ 0 ∧
    isValid store = true ∧ 0 < operandCountOf store ∧ 1 < operandCountOf store ∧
      store.operandCount ≤ 2 := by decide

theorem witness_NumberFormatsReadBack :
    0xffff ≠ 0 ∧ 0 < 4 ∧ 0xffff < 16 ^ 4 ∧ '0' ∈ decimal 0 ∧ 'f' ∈ hex 0xffff := by decide

theorem witness_PairAndDisplacementTexts : 0 < 1 ∧ 0 < 128 := by decide

theorem witness_RenderExactlyTheValid :
    isValid ⟨.jnz, .relativeBranch (-128), .empty, 1, 2⟩ = true ∧
    isValid ⟨.jnz, .relativeBranch (-129), .empty, 1, 2⟩ = false ∧
    isValid ⟨.push, .register 4, .empty, 2, 1⟩ = false := by decide

theorem witness_OpcodeTexts :
    (match callRender ⟨.push, .register 4, .empty, 1, 1⟩ with
      | .next text => text == lit "push r4"
      | .fault _ => false
      | .refused _ => false) = true ∧
    Opcode.push ∈ ([(.adc, "adc"), (.push, "push")] : List (Opcode × String)).map Prod.fst := by
  decide

theorem witness_TextProperties :
    step (State.onBytes [0xdf#8, 0xff#8]) = .next (stepped (State.onBytes [0xdf#8, 0xff#8])) ∧
    (stepped (State.onBytes [0xdf#8, 0xff#8])).text = some (lit "[r7:r8 + 0xff] <- r0") :=
  ⟨rfl, by decide⟩

theorem witness_RefusedRequests :
    State.reset.result = none ∧
    (stepped (State.onBytes [0xa0#8])).result = some (.error .invalidOpcode) ∧
    (stepped State.reset).result = some (.error .truncated) ∧
    (stepped (State.onBytes [0xb9#8])).result =
      some (.instruction ⟨.ret, .empty, .empty, 0, 1⟩) ∧ 0 ≠ 1 := by decide

theorem witness_DecodeSliceIsOneStep :
    decodeSlice [0x84#8] = .instruction ⟨.push, .register 4, .empty, 1, 1⟩ := by decide

theorem witness_RelativeTargetArithmetic :
    (∀ rel ∈ [-128, -2, 127],
      isValid ⟨.jnz, .relativeBranch rel, .empty, 1, 2⟩ = true ∧
      operandOf ⟨.jnz, .relativeBranch rel, .empty, 1, 2⟩ 0 = some (.relativeBranch rel) ∧
      isValid ⟨.jccHighGroup, .imm8 2#8, .relativeBranch rel, 2, 2⟩ = true ∧
      operandOf ⟨.jccHighGroup, .imm8 2#8, .relativeBranch rel, 2, 2⟩ 1 =
        some (.relativeBranch rel)) := by decide

theorem witness_AbsoluteTargetIsTheImmediate :
    isValid ⟨.call, .imm16 0xffff#16, .empty, 1, 3⟩ = true ∧
    isValid ⟨.ret, .empty, .empty, 0, 1⟩ = true ∧
    Opcode.ret ∉ [Opcode.jz, .jnz, .jc, .jnc, .jccLowGroup, .jccHighGroup, .jmp, .call] := by decide

theorem witness_OperandAddressesForACaller :
    ∃ v, effectiveAddress (fun _ => 0x10#8) (.indirectMem 4) = some v ∧
      v.toNat + (0xff#8 : Byte).toNat < 2 ^ 16 ∧
      variant (.register 4) ∉ [Variant.absoluteMem, .indirectMem, .indirectMemOffset] := by
  refine ⟨pairValue 0x10#8 0x10#8, rfl, ?_, by decide⟩
  unfold pairValue
  split <;> decide

theorem witness_PatchChangesOneByte :
    (State.onBytes [0x84#8, 0xb9#8]).stream.wf ∧ 1 ≠ 0 := by decide

/-- A sweep of each ending. -/
theorem witness_SweepEndsAndAccountsForEveryByte :
    (State.onBytes [0x84#8, 0xb9#8]).sweepAll.ending = .cleanEnd ∧
    (State.onBytes [0x84#8, 0xa5#8]).sweepAll.ending = .invalidOpcode ∧
    (State.onBytes [0x84#8, 0xbc#8, 0#8]).sweepAll.ending = .truncated := by decide

theorem witness_SweepRowsAreConsecutiveSteps :
    ∃ first row after, (State.onBytes [0x84#8, 0xb9#8]).sweepAll.rows = [first] ++ row :: after :=
  ⟨_, _, _, rfl⟩

end Sys2Proof.Tests
end

section
/-! FAMILY_OP as a whole (00_scope.md R7, 30_encoding.md R61). Listing the eleven families turns each
claim about the function into one about the list of its values: that list is a permutation of the
eleven names, and its nine unpinned values can be any permutation of the nine unplaced names. -/

namespace Sys2Proof.Machine

/-! ### Arrangements -/

/-- Every permutation of a list is one of its numbered arrangements, so the numbering leaves none out. -/
theorem exists_arrange_eq_of_perm {α : Type} {xs ys : List α} (h : ys.Perm xs) :
    ∃ rank, arrange rank xs = ys := by
  induction xs generalizing ys with
  | nil => exact ⟨0, h.eq_nil.symm⟩
  | cons x xs ih =>
    obtain ⟨i, hi, rfl⟩ := List.getElem_of_mem (h.mem_iff.2 List.mem_cons_self)
    have hrest : (ys.eraseIdx i).Perm xs := ((List.getElem_cons_eraseIdx_perm hi).trans h).cons_inv
    obtain ⟨rank, hrank⟩ := ih hrest
    have hbound : i < xs.length + 1 := hi.trans_eq h.length_eq
    -- the place `i` is the last digit of the number, the arrangement of the rest its higher digits
    refine ⟨i + (xs.length + 1) * rank, ?_⟩
    rw [arrange, Nat.add_mul_div_left _ _ (Nat.succ_pos _), Nat.div_eq_of_lt hbound, Nat.zero_add,
      hrank, Nat.add_mul_mod_self_left, Nat.mod_eq_of_lt hbound, List.insertIdx_eraseIdx_getElem hi]

/-! ### The families and the names as lists -/

/-- The nine families that are not pinned, in ascending order. -/
def openFamilies : List RegFamily := [.f00, .f08, .f10, .f18, .f20, .f30, .f38, .f40, .f50]

/-- The eleven families, the two pinned ones last. -/
def regFamilies : List RegFamily := openFamilies ++ [.f28, .f48]

/-- The eleven names a family can carry, in the listing order of R61. -/
def familyNames : List Opcode :=
  [.adc, .or, .and, .xor, .add, .sbc, .rcl, .rcr, .inc, .dec, .movRegToAcc]

theorem mem_regFamilies (f : RegFamily) : f ∈ regFamilies := by
  cases f <;> decide

theorem openIndex_getElem_openFamilies :
    ∀ k (hk : k < openFamilies.length), openIndex openFamilies[k] = some k := by decide

theorem familyNames_perm : familyNames.Perm (unplacedOpcodes ++ [.xor, .sbc]) := by decide

theorem familyNames_nodup : familyNames.Nodup := by decide

/-! ### The values of FAMILY_OP -/

@[simp] theorem familyOpOf_f28 (rank : Nat) : familyOpOf rank .f28 = .xor := rfl

@[simp] theorem familyOpOf_f48 (rank : Nat) : familyOpOf rank .f48 = .sbc := rfl

/-- The unpinned families carry, in ascending order, exactly the arrangement of that number. -/
theorem map_familyOpOf_openFamilies (rank : Nat) :
    openFamilies.map (familyOpOf rank) = arrange rank unplacedOpcodes := by
  refine List.ext_getElem (by rw [(arrange_perm _ _).length_eq]; rfl) fun k hk hk' => ?_
  have hidx := openIndex_getElem_openFamilies k (by simpa using hk)
  simp only [List.getElem_map, familyOpOf, hidx, List.getD_eq_getElem _ _ hk']

/-- The values of the bijection of any number are the eleven names, each once. -/
theorem map_familyOpOf_regFamilies_perm (rank : Nat) :
    (regFamilies.map (familyOpOf rank)).Perm familyNames := by
  rw [regFamilies, List.map_append, map_familyOpOf_openFamilies]
  exact ((arrange_perm rank unplacedOpcodes).append_right _).trans familyNames_perm.symm

theorem familyOpOf_injective (rank : Nat) : Function.Injective (familyOpOf rank) := by
  have hnodup : (regFamilies.map (familyOpOf rank)).Nodup :=
    (map_familyOpOf_regFamilies_perm rank).nodup_iff.2 familyNames_nodup
  intro f g h
  exact List.inj_on_of_nodup_map hnodup (mem_regFamilies f) (mem_regFamilies g) h

theorem mem_familyNames_iff (rank : Nat) (opc : Opcode) :
    opc ∈ familyNames ↔ ∃ f, familyOpOf rank f = opc := by
  rw [← (map_familyOpOf_regFamilies_perm rank).mem_iff, List.mem_map]
  simp only [mem_regFamilies, true_and]

/-- Settles O10: FAMILY_OP is the bijection of one number, and each of these facts holds of the
bijection of every number. -/
theorem familyOpIsAPinnedBijection : Obligations.FamilyOpIsAPinnedBijection := by
  unfold Obligations.FamilyOpIsAPinnedBijection
  exact ⟨familyOpOf_f28 _, familyOpOf_f48 _, fun _ _ h => familyOpOf_injective _ h,
    mem_familyNames_iff _⟩

/-! ### Every allowed bijection -/

/-- An injective choice of names has the eleven names as its values: eleven different ones of eleven. -/
theorem map_regFamilies_perm_of_injective {g : RegFamily → Opcode} (hinj : Function.Injective g)
    (hmem : ∀ f, g f ∈ familyNames) : (regFamilies.map g).Perm familyNames := by
  have hnodup : (regFamilies.map g).Nodup := List.Nodup.map hinj (by decide)
  have hsub : regFamilies.map g ⊆ familyNames := fun _ => List.forall_mem_map.2 (fun f _ => hmem f) _
  exact (hnodup.subperm hsub).perm_of_length_le (by rw [List.length_map]; decide)

/-- An allowed bijection gives the unpinned families a permutation of the nine unplaced names. -/
theorem map_openFamilies_perm_of_pinned {g : RegFamily → Opcode} (hxor : g .f28 = .xor)
    (hsbc : g .f48 = .sbc) (hinj : Function.Injective g) (hmem : ∀ f, g f ∈ familyNames) :
    (openFamilies.map g).Perm unplacedOpcodes := by
  have hall := (map_regFamilies_perm_of_injective hinj hmem).trans familyNames_perm
  simp only [regFamilies, List.map_append, List.map_cons, List.map_nil, hxor, hsbc] at hall
  exact (List.perm_append_right_iff _).1 hall

/-- Two choices of names are equal when they agree on the pinned and on the unpinned families. -/
theorem eq_of_map_openFamilies_eq {g h : RegFamily → Opcode} (h28 : g .f28 = h .f28)
    (h48 : g .f48 = h .f48) (hopen : openFamilies.map g = openFamilies.map h) (f : RegFamily) :
    g f = h f := by
  have hall : regFamilies.map g = regFamilies.map h := by
    simp only [regFamilies, List.map_append, List.map_cons, List.map_nil, hopen, h28, h48]
  exact List.map_inj_left.1 hall f (mem_regFamilies f)

/-- Settles O11: the number of the bijection is that of the arrangement it gives the unpinned
families. -/
theorem everyAllowedFamilyOpHasANumber : Obligations.EveryAllowedFamilyOpHasANumber := by
  unfold Obligations.EveryAllowedFamilyOpHasANumber
  intro g hxor hsbc hinj hmem
  obtain ⟨rank, hrank⟩ := exists_arrange_eq_of_perm
    (map_openFamilies_perm_of_pinned hxor hsbc hinj hmem)
  exact ⟨rank, eq_of_map_openFamilies_eq hxor.symm hsbc.symm
    ((map_familyOpOf_openFamilies rank).trans hrank)⟩

end Sys2Proof.Machine
end

section
/-! What a step can do, said once, and the claims of 10_state.md and of reset that follow from it. Every
meaning is the transaction of one valid record, or that of an invalid byte; the window is long enough for
it exactly when the decoder answers an instruction; so a step ends in one of three states, each fixed by
the stream and the position. -/

namespace Sys2Proof

/-! ### The length of what is decoded -/

/-- The two opcode bytes that `followOn` names one by one are of family 0xb8. -/
theorem ne_jmp_call_of_opFamily_ne {op : Byte} (h : opFamily op ≠ 0xb8#8) :
    op ≠ 0xbc#8 ∧ op ≠ 0xbf#8 :=
  ⟨fun hop => h (hop ▸ rfl), fun hop => h (hop ▸ rfl)⟩

/-- The dispatch takes as many bytes as the opcode byte asks for (R59). -/
theorem assemble_length (op b1 b2 : Byte) : (assemble op b1 b2).length = 1 + followOn op := by
  have hwide := @ne_jmp_call_of_opFamily_ne op
  unfold assemble
  split
  case h_12 | h_14 | h_19 | h_20 | h_21 =>
    -- the five families whose low bits choose the opcode (R49)
    split_ifs <;> simp_all [followOn, Instr.length]
  all_goals simp_all [followOn, Instr.length]

/-- The decoder answers an instruction exactly when all the follow-on bytes are there. -/
theorem decode_cons_cases (op : Byte) (tail : List Byte) :
    (followOn op ≤ tail.length ∧
      ∃ i rest, decode (op :: tail) = .ok (i, rest) ∧ i.length = 1 + followOn op) ∨
    (tail.length < followOn op ∧ decode (op :: tail) = .error .truncated) := by
  have hle := followOn_le_two op
  rcases hf : followOn op with _ | _ | _ | k
  · exact .inl ⟨Nat.zero_le _, assemble op 0#8 0#8, tail, by simp only [decode, hf],
      hf ▸ assemble_length ..⟩
  · rcases tail with _ | ⟨b1, tail⟩
    · exact .inr ⟨Nat.zero_lt_one, by simp only [decode, hf]⟩
    · exact .inl ⟨by simp, assemble op b1 0#8, tail, by simp only [decode, hf],
        hf ▸ assemble_length ..⟩
  · rcases tail with _ | ⟨b1, _ | ⟨b2, tail⟩⟩
    · exact .inr ⟨by simp, by simp only [decode, hf]⟩
    · exact .inr ⟨by simp, by simp only [decode, hf]⟩
    · exact .inl ⟨by simp, assemble op b1 b2, tail, by simp only [decode, hf],
        hf ▸ assemble_length ..⟩
  · omega

end Sys2Proof

namespace Sys2Proof.Machine

/-! ### Valid records -/

theorem isValid_iff (ins : Instruction) :
    isValid ins = true ↔ ins.operandCount = (signature ins.opcode).length ∧
      variant ins.slot0 = (signature ins.opcode).getD 0 .empty ∧
      variant ins.slot1 = (signature ins.opcode).getD 1 .empty ∧
      operandInRange ins.slot0 = true ∧ operandInRange ins.slot1 = true := by
  simp only [isValid, Bool.and_eq_true, beq_iff_eq, and_assoc]

theorem signature_length_le (opc : Opcode) : (signature opc).length ≤ 2 := by
  cases opc <;> decide

theorem empty_not_mem_signature (opc : Opcode) : Variant.empty ∉ signature opc := by
  cases opc <;> decide

/-- A displacement byte is in the range of an 8-bit signed number (R8). -/
theorem signed8_bounds (r : Byte) : -128 ≤ signed8 r ∧ signed8 r ≤ 127 := by
  have hr := r.isLt
  unfold signed8
  split <;> omega

theorem operandInRange_signed8 (r : Byte) :
    operandInRange (.relativeBranch (signed8 r)) = true := by
  simp [operandInRange, signed8_bounds]

/-- Whichever opcode FAMILY_OP gives the family, its record is valid. -/
theorem isValid_build1_familyOp (f : RegFamily) (n : Nat) :
    isValid (build1 (familyOp f) (.register n)) = true := by
  simp [isValid_iff, build1, familyOp_signature, variant, operandInRange]

theorem render_of_isValid {ins : Instruction} (h : isValid ins = true) :
    render ins = some (template ins.opcode ins.slot0 ins.slot1) := by
  simp only [render, h, if_true]

/-- The operands are of the signature's variants, index by index (R14, R16). -/
theorem operandOf_map_variant {ins : Instruction} (h : isValid ins = true) (i : Nat) :
    (operandOf ins i).map variant = (signature ins.opcode)[i]? := by
  obtain ⟨hcount, hslot0, hslot1, -, -⟩ := (isValid_iff ins).1 h
  have hlen := signature_length_le ins.opcode
  simp only [operandOf, hcount]
  split_ifs with hi
  · rcases i with _ | _ | i
    · simpa [List.getElem?_eq_getElem hi] using hslot0
    · simpa [List.getElem?_eq_getElem hi] using hslot1
    · omega
  · simpa using hi

/-- The operand list of a valid Instruction has the signature's variants (R14, R179). -/
theorem take_variants_eq_signature {ins : Instruction} (h : isValid ins = true) :
    [variant ins.slot0, variant ins.slot1].take ins.operandCount = signature ins.opcode := by
  obtain ⟨hcount, hslot0, hslot1, -, -⟩ := (isValid_iff ins).1 h
  rw [hcount, hslot0, hslot1]
  match signature ins.opcode, signature_length_le ins.opcode with
  | [], _ | [_], _ | [_, _], _ => rfl

/-- Settles O41: below the count the accessor has the variant of the signature there, which lists no
`Empty`. -/
theorem operandAccessorContract : Obligations.OperandAccessorContract := by
  unfold Obligations.OperandAccessorContract
  refine ⟨fun ins => ⟨rfl, rfl, fun i hi => if_neg (Nat.not_lt.2 hi)⟩, fun ins h => ?_⟩
  obtain ⟨hcount, -⟩ := (isValid_iff ins).1 h
  have hle : ins.operandCount ≤ 2 := hcount ▸ signature_length_le ins.opcode
  refine ⟨hle, fun i (hi : i < ins.operandCount) => ?_⟩
  have hvariant := operandOf_map_variant h i
  have hlt : i < (signature ins.opcode).length := hcount ▸ hi
  rw [List.getElem?_eq_getElem hlt] at hvariant
  refine ⟨?_, ?_, fun hempty => ?_⟩
  · rcases i with _ | _ | i
    · simp [operandOf, hi]
    · simp [operandOf, hi]
    · omega
  · simpa using congrArg Option.isSome hvariant
  · rw [hempty] at hvariant
    exact empty_not_mem_signature _ (Option.some.inj hvariant ▸ List.getElem_mem hlt)

/-! ### The meanings as transactions -/

/-- The transaction of a valid record, by the number of bytes that are there. -/
theorem transact_of_isValid (s : State) (len : Nat) {ins : Instruction} (h : isValid ins = true) :
    s.transact len ins =
      if s.available len = len then
        s.afterInstruction { ins with byteLength := len } (template ins.opcode ins.slot0 ins.slot1)
      else s.afterError (s.available len) .truncated := by
  split_ifs with havail
  · exact transact_complete s len ins _ havail
      (render_of_isValid (ins := { ins with byteLength := len }) h)
  · exact transact_truncated s len ins (lt_of_le_of_ne (available_le s len) havail)

/-- The transaction of an invalid byte, by whether the byte is there. -/
theorem transactInvalid_eq (s : State) :
    s.transactInvalid =
      if s.available 1 = 1 then s.afterError 1 .invalidOpcode else s.afterError 0 .truncated := by
  split_ifs with havail
  · exact transactInvalid_complete s havail
  · exact transactInvalid_truncated s (lt_of_le_of_ne (available_le s 1) havail)

/-- The meaning of every instruction is the transaction of one valid record, the same in every state,
or that of an invalid byte. -/
theorem exec_cases (i : Instr) :
    (∃ ins, isValid ins = true ∧ ∀ s, exec i s = .next (s.transact i.length ins)) ∨
      (i.length = 1 ∧ ∀ s, exec i s = .next s.transactInvalid) := by
  cases i with
  | family00 n | family08 n | family10 n | family18 n | family20 n | family30 n | family38 n
  | family40 n | family50 n =>
    refine .inl ⟨_, ?_, fun s => rfl⟩
    exact isValid_build1_familyOp _ _
  | jnz r | jnc r | jz r | jc r =>
    refine .inl ⟨_, ?_, fun s => rfl⟩
    exact (isValid_iff _).2 ⟨rfl, rfl, rfl, operandInRange_signed8 r, rfl⟩
  | jccLowGroup c r | jccHighGroup c r =>
    refine .inl ⟨_, ?_, fun s => rfl⟩
    exact (isValid_iff _).2 ⟨rfl, rfl, rfl, rfl, operandInRange_signed8 r⟩
  | invalid op => exact .inr ⟨rfl, fun s => rfl⟩
  | xor | sbc | op5xHi | scf | bit | op6xHi | ccf | movAccToReg | cmp | push | pop | ret | iret
  | jmp | call | incW | storeAbs16 | storeIndirect | storeIndirectOffset | loadImm8 | loadAbs16
  | loadIndirect | loadIndirectOffset =>
    refine .inl ⟨_, ?_, fun s => rfl⟩
    rfl

/-! ### What a step can do -/

theorem one_le_wanted (s : State) : 1 ≤ s.wanted := by
  unfold State.wanted
  split <;> omega

theorem wanted_le (s : State) : s.wanted ≤ Config.maxLen := by
  unfold State.wanted
  split
  next op _ => exact Nat.add_le_add_left (followOn_le_two op) 1
  next => decide

/-- Of fewer bytes asked for, as many are there as of more. -/
theorem available_min (s : State) {j k : Nat} (h : j ≤ k) :
    s.available j = min j (s.available k) := by
  rw [State.available, ← peek_take _ _ j k h, List.length_take, State.available]

/-- The fetch gives an instruction exactly when all the bytes its opcode byte asks for are there. -/
theorem fetch_cases (s : State) :
    (s.available s.wanted = s.wanted ∧ ∃ i, s.fetch = .ok i ∧ i.length = s.wanted) ∨
      (s.available s.wanted < s.wanted ∧ s.fetch = .error .truncated) := by
  have havail : s.available s.wanted = min s.wanted s.ahead.length :=
    available_min s (wanted_le s)
  have hahead : s.ahead = _ := peek_succ s.stream s.pos 2
  cases hread : s.stream.read s.pos with
  | none =>
    simp only [hread] at hahead
    have hwanted : s.wanted = 1 := by simp only [State.wanted, hread]
    rw [havail, hwanted, hahead]
    exact .inr ⟨by decide, by simp only [State.fetch, hahead, decode]⟩
  | some op =>
    simp only [hread] at hahead
    have hwanted : s.wanted = 1 + followOn op := by simp only [State.wanted, hread]
    rw [havail, hwanted, hahead, List.length_cons]
    rcases decode_cons_cases op (s.stream.peek (s.pos + 1) 2) with
      ⟨hle, i, rest, hdec, hlen⟩ | ⟨hlt, hdec⟩
    · exact .inl ⟨by omega, i, by simp only [State.fetch, hahead, hdec], hlen⟩
    · exact .inr ⟨by omega, by simp only [State.fetch, hahead, hdec]⟩

/-- All that a step can do: an Instruction, valid and with its text, where its bytes are there;
`InvalidOpcode` after one byte; or `Truncated` after the bytes that are there (R60, R191, R192). -/
theorem step_cases (s : State) :
    (s.available s.wanted = s.wanted ∧ ∃ ins, isValid ins = true ∧ ins.byteLength = s.wanted ∧
      step s = .next (s.afterInstruction ins (template ins.opcode ins.slot0 ins.slot1))) ∨
    (s.available s.wanted = s.wanted ∧ s.wanted = 1 ∧
      step s = .next (s.afterError 1 .invalidOpcode)) ∨
    (s.available s.wanted < s.wanted ∧
      step s = .next (s.afterError (s.available s.wanted) .truncated)) := by
  rcases fetch_cases s with ⟨havail, i, hfetch, hlen⟩ | ⟨havail, hfetch⟩
  · rcases exec_cases i with ⟨ins, hvalid, hexec⟩ | ⟨hone, hexec⟩
    · refine .inl ⟨havail, { ins with byteLength := s.wanted }, hvalid, rfl, ?_⟩
      simp only [step, hfetch, hexec, hlen, transact_of_isValid s _ hvalid, havail, if_true]
    · have hwanted : s.wanted = 1 := hlen ▸ hone
      refine .inr (.inl ⟨havail, hwanted, ?_⟩)
      rw [hwanted] at havail
      simp only [step, hfetch, hexec, transactInvalid_eq, havail, if_true]
  · refine .inr (.inr ⟨havail, ?_⟩)
    simp only [step, hfetch, transactTruncated_eq]

/-- However a step ends, it has read the bytes it asks for as far as they are there (R34, R197). -/
theorem exists_step_pos (s : State) :
    ∃ t, step s = .next t ∧ t.pos = s.pos + s.available s.wanted := by
  rcases step_cases s with ⟨havail, ins, -, hlen, hstep⟩ | ⟨havail, hone, hstep⟩ | ⟨-, hstep⟩
  · exact ⟨_, hstep, by rw [afterInstruction_pos, hlen, havail]⟩
  · exact ⟨_, hstep, by rw [afterError_pos, havail, hone]⟩
  · exact ⟨_, hstep, afterError_pos ..⟩

/-! ### The invariant -/

theorem afterInstruction_inv {s : State} {ins : Instruction} {text : Text} (hwf : s.stream.wf)
    (hvalid : isValid ins = true) (hmin : Config.minLen ≤ ins.byteLength)
    (hmax : ins.byteLength ≤ Config.maxLen) (htext : render ins = some text) :
    (s.afterInstruction ins text).Inv :=
  ⟨hwf, Nat.le_add_right _ _, hvalid, (Nat.add_sub_cancel_left ..).symm, hmin, hmax, htext.symm⟩

theorem afterError_invalidOpcode_inv {s : State} (hwf : s.stream.wf) :
    (s.afterError 1 .invalidOpcode).Inv :=
  ⟨hwf, Nat.le_add_right _ _, rfl, Nat.add_sub_cancel_left ..⟩

theorem afterError_truncated_inv {s : State} {k : Nat} (hwf : s.stream.wf) (hk : k ≤ 2)
    (hread : s.stream.read (s.pos + k) = none) : (s.afterError k .truncated).Inv :=
  ⟨hwf, Nat.le_add_right _ _, rfl, (Nat.add_sub_cancel_left ..).trans_le hk, hread⟩

/-- Settles O31: a step leaves the stream as it was, and each of its three ends has sound outputs. -/
theorem everyStepKeepsTheInvariant : Obligations.EveryStepKeepsTheInvariant := by
  unfold Obligations.EveryStepKeepsTheInvariant
  rintro s t ⟨hwf, -, -⟩ ht
  have hmax := wanted_le s
  rcases step_cases s with ⟨-, ins, hvalid, hlen, hstep⟩ | ⟨-, -, hstep⟩ | ⟨hshort, hstep⟩
  all_goals
    obtain rfl := Host.Outcome.next.inj (hstep.symm.trans ht)
  · exact afterInstruction_inv hwf hvalid (hlen ▸ one_le_wanted s) (hlen ▸ hmax)
      (render_of_isValid hvalid)
  · exact afterError_invalidOpcode_inv hwf
  · exact afterError_truncated_inv hwf (Nat.le_of_lt_succ (hshort.trans_le hmax))
      (peek_short _ _ _ hshort)

/-- Settles O32: the stream lists nothing, and no output is there to be unsound. -/
theorem resetHasTheInvariant : Obligations.ResetHasTheInvariant := by
  unfold Obligations.ResetHasTheInvariant
  exact ⟨⟨reset_wf, Nat.le_refl _, rfl⟩, rfl, rfl⟩

/-! ### What a step depends on, and what it gives -/

/-- Settles O33: the fetch looks at the stream and the position, and so do the ends of the transaction
it begins. -/
theorem stepForgetsEarlierTransactions : Obligations.StepForgetsEarlierTransactions := by
  unfold Obligations.StepForgetsEarlierTransactions
  intro s m r x
  have hfetch : ({ s with mark := m, result := r, text := x } : State).fetch = s.fetch := rfl
  unfold step
  rw [hfetch]
  cases s.fetch with
  | error e =>
    simp only [transactTruncated_eq]
    rfl
  | ok i =>
    rcases exec_cases i with ⟨ins, hvalid, hexec⟩ | ⟨-, hexec⟩
    · simp only [hexec, transact_of_isValid _ _ hvalid]
      rfl
    · simp only [hexec, transactInvalid_eq]
      rfl

/-- Settles O39: of the three ends of a step only the first gives an Instruction. -/
theorem decodedInstructionsAreValid : Obligations.DecodedInstructionsAreValid := by
  unfold Obligations.DecodedInstructionsAreValid
  intro s t ins ht hresult
  rcases step_cases s with ⟨-, out, hvalid, -, hstep⟩ | ⟨-, -, hstep⟩ | ⟨-, hstep⟩
  all_goals
    obtain rfl := Host.Outcome.next.inj (hstep.symm.trans ht)
  · obtain rfl : out = ins := by simpa using hresult
    exact ⟨hvalid, take_variants_eq_signature hvalid, rfl⟩
  · simp at hresult
  · simp at hresult

/-! ### A reset during a transaction -/

/-- Settles O50: the reads that a reset lets the transaction make are the first of those the step makes. -/
theorem resetAbandonsATransaction : Obligations.ResetAbandonsATransaction := by
  unfold Obligations.ResetAbandonsATransaction
  intro s k
  obtain ⟨t, hstep, hpos⟩ := exists_step_pos s
  have hread : s.available (min k s.wanted) = min k (s.available s.wanted) := by
    rw [available_min s (Nat.min_le_right k s.wanted), Nat.min_assoc,
      Nat.min_eq_right (available_le s s.wanted)]
  simp only [resetDuring_eq, State.takeInstruction]
  exact ⟨trivial, trivial, trivial, trivial, trivial, ⟨t, hstep, by omega⟩, trivial⟩

end Sys2Proof.Machine
end

section
/-! The stream, the cursor and the calls on them (20_memory.md). That no transaction writes the
stream follows from the three ends of a step. What `decode_slice` gives follows from one fact about
every window: the step, which goes by the encoded instruction, ends as the algorithm of
30_encoding.md R60 does, read by read. -/

namespace Sys2Proof

/-! ### The bytes of an opcode and of a 16-bit value -/

/-- The low three bits as a byte are the low bits that R60 masks out (R47). -/
theorem opLow_setWidth (op : Byte) : (opLow op).setWidth 8 = op &&& 0x07#8 := by
  ext i hi
  interval_cases i <;> simp [opLow]

theorem toNat_opLow_setWidth (op : Byte) : ((opLow op).setWidth 8).toNat = (opLow op).toNat :=
  BitVec.toNat_setWidth_of_le (by decide)

theorem value16_toNat (b1 b2 : Byte) : (value16 b1 b2).toNat = b1.toNat + 256 * b2.toNat := by
  rw [value16, BitVec.toNat_append, ← Nat.shiftLeft_add_eq_or_of_lt b1.isLt, Nat.shiftLeft_eq]
  omega

/-- The two bytes side by side are `b1 | (b2 << 8)` (R37). -/
theorem or_shiftLeft_eq_value16 (b1 b2 : Byte) :
    b1.setWidth 16 ||| b2.setWidth 16 <<< 8 = value16 b1 b2 := by
  rw [value16, BitVec.append_def, BitVec.shiftLeftZeroExtend_eq, BitVec.setWidth'_eq,
    BitVec.or_comm]

/-- A follow-on byte that the opcode byte does not ask for has no influence (R59). -/
theorem assemble_congr {op b1 b2 c1 c2 : Byte} (h1 : 1 ≤ followOn op → b1 = c1)
    (h2 : followOn op = 2 → b2 = c2) : assemble op b1 b2 = assemble op c1 c2 := by
  have hwide := @ne_jmp_call_of_opFamily_ne op
  unfold assemble
  split <;> simp_all [followOn]

/-- What a decode has read decides its instruction: more bytes are left over. -/
theorem decode_append {bs : List Byte} {i : Instr} {rest : List Byte}
    (h : decode bs = .ok (i, rest)) (extra : List Byte) :
    decode (bs ++ extra) = .ok (i, rest ++ extra) := by
  rcases decode_ok_cases h with ⟨op, hf, rfl, rfl⟩ | ⟨op, b1, hf, rfl, rfl⟩ |
    ⟨op, b1, b2, hf, rfl, rfl⟩
  all_goals simp only [List.cons_append, decode, hf]

end Sys2Proof

namespace Sys2Proof.Machine

/-! ### A displacement byte -/

/-- Two's complement (R8, D31) is the signed reading of an 8-bit vector. -/
theorem signed8_eq_toInt (b : Byte) : signed8 b = b.toInt := by
  rw [signed8, BitVec.toInt_eq_toNat_cond]
  split_ifs <;> omega

/-- Settles O8: the 16-bit value is the two bytes side by side, the displacement the signed byte. -/
theorem followOnBytesAsNumbers : Obligations.FollowOnBytesAsNumbers := by
  unfold Obligations.FollowOnBytesAsNumbers
  refine ⟨value16_toNat, fun _ => rfl, fun b => ?_⟩
  obtain ⟨hmin, hmax⟩ := signed8_bounds b
  exact ⟨hmin, hmax, by rw [signed8_eq_toInt, BitVec.ofInt_toInt]⟩

/-! ### The cursor -/

theorem nextByte_of_read {s : State} {b : Byte} (h : s.stream.read s.pos = some b) :
    s.nextByte = some (b, s.advance) := by
  simp only [State.nextByte, h]

theorem nextByte_of_read_none {s : State} (h : s.stream.read s.pos = none) : s.nextByte = none := by
  simp only [State.nextByte, h]

/-- A byte read is a byte more since the mark, where the mark is not past the cursor (R33). -/
theorem offset_advance {s : State} (h : s.mark ≤ s.pos) : s.advance.offset = s.offset + 1 :=
  Nat.succ_sub h

/-- Settles O9: `next` is the read at the position, and `offset` the distance from the mark. -/
theorem cursorOperations : Obligations.CursorOperations := by
  unfold Obligations.CursorOperations
  exact ⟨fun s => ⟨rfl, Nat.sub_self s.pos⟩,
    fun s _ h => ⟨s.advance, nextByte_of_read h, rfl, offset_advance⟩,
    fun _ => nextByte_of_read_none⟩

/-! ### The stream -/

/-- A run of bytes written leaves every position above it as it was. -/
theorem read_writeBytes_above (m : Memory) (a c : Nat) (bs : List Byte) (h : a + bs.length ≤ c) :
    (m.writeBytes a bs).read c = m.read c := by
  induction bs generalizing m a with
  | nil => rfl
  | cons b rest ih =>
    rw [List.length_cons] at h
    rw [Memory.writeBytes, ih _ _ (by omega), read_write_other _ _ _ _ (by omega)]

/-- A new cursor's stream holds the bytes given and no other (R44). -/
theorem read_onBytes (bs : List Byte) (j : Nat) : (State.onBytes bs).stream.read j = bs[j]? := by
  rcases Nat.lt_or_ge j bs.length with h | h
  · exact (Nat.zero_add j ▸ read_writeBytes_inside [] 0 j bs h :)
  · rw [List.getElem?_eq_none h]
    exact read_writeBytes_above [] 0 j bs (by omega)

/-- A peek sees the bytes that the reads give. -/
theorem peek_eq_take {m : Memory} {a : Nat} {bs : List Byte} (h : ∀ j, m.read (a + j) = bs[j]?)
    (k : Nat) : m.peek a k = bs.take k := by
  induction k generalizing a bs with
  | zero => simp
  | succ k ih =>
    have hhead : m.read a = bs[0]? := h 0
    rw [peek_succ, hhead]
    cases bs with
    | nil => rfl
    | cons b rest =>
      have htail : ∀ j, m.read (a + 1 + j) = rest[j]? := fun j => by
        rw [Nat.add_assoc, Nat.add_comm 1 j]; exact h (j + 1)
      simp only [List.getElem?_cons_zero, ih htail, List.take_succ_cons]

/-- Each byte that a peek sees is the one a read there gives. -/
theorem read_of_getElem?_peek {m : Memory} {a k j : Nat} {b : Byte}
    (h : (m.peek a k)[j]? = some b) : m.read (a + j) = some b := by
  induction k generalizing a j with
  | zero => simp at h
  | succ k ih =>
    rw [peek_succ] at h
    cases hread : m.read a with
    | none => simp [hread] at h
    | some c =>
      rw [hread] at h
      cases j with
      | zero => exact hread.trans h
      | succ j => simpa [Nat.add_assoc, Nat.add_comm 1 j] using ih (a := a + 1) h

/-- Settles O54: the stream after a write, read at the position written and at any other. -/
theorem patchChangesOneByte : Obligations.PatchChangesOneByte := by
  unfold Obligations.PatchChangesOneByte
  exact fun s a b => ⟨read_write_same s.stream a b,
    fun c hc => read_write_other s.stream a c b hc, rfl, wf_write s.stream a b⟩

/-! ### No transaction writes the stream -/

/-- An instruction's meaning leaves the stream, and the mark where the cursor was (R31, R36). -/
theorem exec_frame {i : Instr} {s t : State} (h : exec i s = .next t) :
    t.stream = s.stream ∧ t.mark = s.pos := by
  rcases exec_cases i with ⟨ins, -, hexec⟩ | ⟨-, hexec⟩
  all_goals
    obtain rfl := Host.Outcome.next.inj ((hexec s).symm.trans h)
  · exact ⟨transact_stream .., transact_mark ..⟩
  · rw [transactInvalid_eq]
    split_ifs <;> exact ⟨rfl, rfl⟩

/-- A step leaves the stream, and the mark where the cursor was, whichever its end. -/
theorem step_frame {s t : State} (h : step s = .next t) : t.stream = s.stream ∧ t.mark = s.pos := by
  rcases step_cases s with ⟨-, ins, -, -, hstep⟩ | ⟨-, -, hstep⟩ | ⟨-, hstep⟩
  all_goals
    obtain rfl := Host.Outcome.next.inj (hstep.symm.trans h)
    exact ⟨rfl, rfl⟩

/-- Settles O27: an equal stream reads the same everywhere. -/
theorem noInstructionWritesTheStream : Obligations.NoInstructionWritesTheStream := by
  unfold Obligations.NoInstructionWritesTheStream
  refine ⟨fun i s t h => ?_, fun s t h => ?_⟩
  · obtain ⟨hstream, hmark⟩ := exec_frame h
    exact ⟨hmark, fun a => by rw [hstream]⟩
  · obtain ⟨hstream, hmark⟩ := step_frame h
    exact ⟨hmark, hstream, fun a => by rw [hstream]⟩

/-! ### Requests that are refused -/

/-- Settles O48: each call by what its answer depends on, the result there is to read or the names
of the cursors. -/
theorem refusedRequests : Obligations.RefusedRequests := by
  unfold Obligations.RefusedRequests
  refine ⟨fun _ _ => rfl, fun s e h => ?_, fun s ins h => ?_, fun c s t => if_pos rfl,
    fun c d s t h => if_neg h⟩
  · rcases h with h | h <;> simp only [State.takeInstruction, h]
  · simp only [State.takeInstruction, h]

/-! ### The outputs of a transaction -/

/-- The result and the text put out together: what `decode` does with the outcome of R60. -/
def putOut (p : State × DecodeResult) : State :=
  match p.2 with
  | .instruction ins => { p.1 with result := some (.instruction ins), text := render ins }
  | .error e => p.1.raise e

theorem decodeCall_eq_putOut (s : State) : s.decodeCall = putOut (s.decodeR60 familyOp) := by
  unfold State.decodeCall
  rcases s.decodeR60 familyOp with ⟨t, _ | _⟩ <;> rfl

theorem putOut_result (p : State × DecodeResult) : (putOut p).result = some p.2 := by
  rcases p with ⟨t, _ | _⟩ <;> rfl

/-- `k` reads and then a record that does not depend on them: a transaction from some read on. -/
def State.readThenFinish (s : State) : Nat → Instruction → State × DecodeResult
  | 0, ins => s.finish ins
  | k + 1, ins => s.withByte fun _ t => t.readThenFinish k ins

theorem withByte_of_read {s : State} {b : Byte} (h : s.stream.read s.pos = some b)
    (f : Byte → State → State × DecodeResult) : s.withByte f = f b s.advance := by
  simp only [State.withByte, nextByte_of_read h]

theorem withByte_of_read_none {s : State} (h : s.stream.read s.pos = none)
    (f : Byte → State → State × DecodeResult) : s.withByte f = (s, .error .truncated) := by
  simp only [State.withByte, nextByte_of_read_none h]

/-- `State.transact` makes its reads and then asks whether one failed; R60 asks at each read. -/
theorem transact_eq_putOut (s : State) (len : Nat) (ins : Instruction) :
    s.transact len ins = putOut (s.markCursor.readThenFinish len ins) := by
  unfold State.transact
  generalize s.markCursor = t
  induction len generalizing t with
  | zero => rfl
  | succ k ih =>
    cases hread : t.stream.read t.pos with
    | none =>
      simp only [State.consume, nextByte_of_read_none hread, State.readThenFinish,
        withByte_of_read_none hread]
      rfl
    | some b =>
      simpa only [State.consume, nextByte_of_read hread, State.readThenFinish,
        withByte_of_read hread] using ih t.advance

/-- Where the opcode byte is there, the reads that are left are those of the follow-on bytes. -/
theorem transact_succ_of_read {s : State} {op : Byte} (h : s.stream.read s.pos = some op) (k : Nat)
    (ins : Instruction) :
    s.transact (k + 1) ins = putOut (s.markCursor.advance.readThenFinish k ins) := by
  rw [transact_eq_putOut, State.readThenFinish]
  exact congrArg putOut (withByte_of_read (s := s.markCursor) h _)

theorem transactInvalid_of_read {s : State} {op : Byte} (h : s.stream.read s.pos = some op) :
    s.transactInvalid = putOut (s.markCursor.advance, .error .invalidOpcode) := by
  have hnext : s.markCursor.nextByte = some (op, s.markCursor.advance) := nextByte_of_read h
  simp only [State.transactInvalid, State.consume, hnext]
  rfl

/-! ### The step is the algorithm of R60 -/

/-- The byte `j` places behind the cursor; 0 where the stream has none, which is never read. -/
def State.byteAhead (s : State) (j : Nat) : Byte := (s.stream.read (s.pos + j)).getD 0#8

theorem byteAhead_of_read {s : State} {j : Nat} {b : Byte}
    (h : s.stream.read (s.pos + j) = some b) : s.byteAhead j = b := by
  rw [State.byteAhead, h, Option.getD_some]

/-- What goes on with the byte read can be given that byte beforehand. -/
theorem withByte_congr {s : State} {f g : Byte → State → State × DecodeResult}
    (h : f (s.byteAhead 0) s.advance = g (s.byteAhead 0) s.advance) :
    s.withByte f = s.withByte g := by
  cases hread : s.stream.read s.pos with
  | none => rw [withByte_of_read_none hread, withByte_of_read_none hread]
  | some b =>
    rw [byteAhead_of_read (j := 0) hread] at h
    rw [withByte_of_read hread, withByte_of_read hread, h]

theorem finishByte_eq (s : State) (make : Byte → Instruction) :
    s.finishByte make = s.readThenFinish 1 (make (s.byteAhead 0)) :=
  withByte_congr rfl

theorem finishWide_eq (s : State) (make : Word16 → Instruction) :
    s.finishWide make = s.readThenFinish 2 (make (value16 (s.byteAhead 0) (s.byteAhead 1))) := by
  refine withByte_congr (withByte_congr ?_)
  rw [or_shiftLeft_eq_value16]
  rfl

/-- In the two branch families the follow-on byte is read whatever the low bits choose (R60). -/
theorem finishBranch_eq (s : State) (c : BitVec 3) (opc0 opc1 group : Opcode) :
    s.finishBranch (c.setWidth 8) opc0 opc1 group =
      s.readThenFinish 1
        (if c = 0#3 then build1 opc0 (.relativeBranch (signed8 (s.byteAhead 0)))
        else if c = 1#3 then build1 opc1 (.relativeBranch (signed8 (s.byteAhead 0)))
        else build2 group (.imm8 (c.setWidth 8)) (.relativeBranch (signed8 (s.byteAhead 0)))) := by
  have h0 : c.setWidth 8 = 0#8 ↔ c = 0#3 := by bv_omega
  have h1 : c.setWidth 8 = 1#8 ↔ c = 1#3 := by bv_omega
  refine withByte_congr ?_
  simp only [h0, h1]
  split_ifs <;> rfl

/-- The meaning of the instruction at the cursor is R60's transaction, whether or not its follow-on
bytes are there. -/
theorem exec_assemble_of_read {s : State} {op : Byte} (h : s.stream.read s.pos = some op) :
    exec (assemble op (s.byteAhead 1) (s.byteAhead 2)) s = .next s.decodeCall := by
  have hR60 : s.decodeCall = putOut (s.markCursor.advance.dispatchR60 familyOp op) := by
    rw [decodeCall_eq_putOut]
    exact congrArg putOut (withByte_of_read (s := s.markCursor) h _)
  have hread (k : Nat) (ins : Instruction) :
      (.next (s.transact (k + 1) ins) : Host.Outcome State Fault Refusal) =
        .next (putOut (s.markCursor.advance.readThenFinish k ins)) :=
    congrArg _ (transact_succ_of_read h k ins)
  have hinvalid : (.next s.transactInvalid : Host.Outcome State Fault Refusal) =
      .next (putOut (s.markCursor.advance, .error .invalidOpcode)) :=
    congrArg _ (transactInvalid_of_read h)
  rw [hR60]
  generalize hi : assemble op (s.byteAhead 1) (s.byteAhead 2) = i
  unfold State.dispatchR60
  simp only [← opLow_setWidth, toNat_opLow_setWidth, finishByte_eq, finishWide_eq, finishBranch_eq]
  -- the cases are R60's; in each the decoder's dispatch, now `hi`, goes by the same family
  split
  case h_30 =>
    unfold assemble opFamily at hi
    split at hi
    case h_30 => exact hi ▸ hinvalid
    all_goals contradiction
  all_goals
    rename_i hfamily
    simp only [assemble, opFamily, hfamily] at hi
    subst hi
  -- one read and the follow-on reads, by family: 0x58 and 0x68, the branches, 0xb8 (`Ret`, `Iret`,
  -- `Jmp`, `Call`, invalid), the wide forms, the forms of one byte more
  case h_12 | h_14 => split_ifs <;> exact hread 0 _
  case h_19 | h_20 => split_ifs <;> exact hread 1 _
  case h_21 =>
    split_ifs
    · exact hread 0 _
    · exact hread 0 _
    · exact hread 2 _
    · exact hread 2 _
    · exact hinvalid
  case h_23 | h_27 => exact hread 2 _
  case h_25 | h_26 | h_29 => exact hread 1 _
  all_goals exact hread 0 _

/-- In a window shorter than the instruction every meaning ends in `Truncated` (R191). -/
theorem exec_of_available_lt {i : Instr} {s : State} (h : s.available i.length < i.length) :
    exec i s = .next (s.afterError (s.available i.length) .truncated) := by
  rcases exec_cases i with ⟨ins, -, hexec⟩ | ⟨hone, hexec⟩
  · rw [hexec, transact_truncated s _ ins h]
  · rw [hone] at h ⊢
    rw [hexec, transactInvalid_truncated s h, Nat.lt_one_iff.1 h]

theorem fetch_eq_ok_iff {s : State} {i : Instr} :
    s.fetch = .ok i ↔ ∃ rest, decode s.ahead = .ok (i, rest) := by
  unfold State.fetch
  rcases decode s.ahead with e | ⟨j, rest⟩ <;> simp

/-- The instruction a fetch gives is the one the opcode byte makes of the bytes behind it. -/
theorem eq_assemble_of_fetch {s : State} {i : Instr} (hfetch : s.fetch = .ok i) :
    ∃ op, s.stream.read s.pos = some op ∧ i = assemble op (s.byteAhead 1) (s.byteAhead 2) := by
  obtain ⟨rest, hdecode⟩ := fetch_eq_ok_iff.1 hfetch
  have hread {j : Nat} {b : Byte} (h : s.ahead[j]? = some b) : s.stream.read (s.pos + j) = some b :=
    read_of_getElem?_peek h
  rcases decode_ok_cases hdecode with ⟨op, hf, hbytes, rfl⟩ | ⟨op, b1, hf, hbytes, rfl⟩ |
    ⟨op, b1, b2, hf, hbytes, rfl⟩
  all_goals
    rw [hbytes] at hread
    refine ⟨op, hread (j := 0) rfl, assemble_congr (fun h1 => ?_) (fun h2 => ?_)⟩
  case inl.refine_1 | inl.refine_2 | inr.inl.refine_2 => omega
  all_goals exact (byteAhead_of_read (hread rfl)).symm

/-- Where the opcode byte is there, a short window is no other case: the step is the meaning of the
instruction the bytes begin. -/
theorem step_of_read {s : State} {op : Byte} (h : s.stream.read s.pos = some op) :
    step s = exec (assemble op (s.byteAhead 1) (s.byteAhead 2)) s := by
  rcases fetch_cases s with ⟨-, i, hfetch, -⟩ | ⟨hshort, hfetch⟩
  · obtain ⟨op', hop', rfl⟩ := eq_assemble_of_fetch hfetch
    obtain rfl : op' = op := Option.some.inj (hop'.symm.trans h)
    simp only [step, hfetch]
  · have hwanted : s.wanted = (assemble op (s.byteAhead 1) (s.byteAhead 2)).length := by
      simp only [State.wanted, h, assemble_length]
    rw [exec_of_available_lt (hwanted ▸ hshort), ← hwanted]
    simp only [step, hfetch, transactTruncated_eq]

/-- With no byte at the cursor a step is `Truncated`, and the cursor stays (R191). -/
theorem step_of_read_none {s : State} (h : s.stream.read s.pos = none) :
    step s = .next (s.afterError 0 .truncated) := by
  have havail (k : Nat) : s.available k = 0 := by
    cases k <;> simp [State.available, peek_succ, h]
  have hwanted := one_le_wanted s
  rcases step_cases s with ⟨hall, -⟩ | ⟨hall, -⟩ | ⟨-, hstep⟩
  · rw [havail] at hall; omega
  · rw [havail] at hall; omega
  · rw [hstep, havail]

/-- One step is one call of R60's `decode`, in every window and whatever the stream holds. -/
theorem step_eq_decodeCall (s : State) : step s = .next s.decodeCall := by
  cases hread : s.stream.read s.pos with
  | some op => rw [step_of_read hread, exec_assemble_of_read hread]
  | none =>
    rw [step_of_read_none hread, decodeCall_eq_putOut]
    exact congrArg (Host.Outcome.next ∘ putOut)
      (withByte_of_read_none (s := s.markCursor) hread _).symm

/-! ### What the bytes behind an instruction can do -/

/-- Where all its bytes are there, an instruction's meaning puts out the same in every state. -/
theorem exec_outputs_eq {i : Instr} {s t s' t' : State} (hs : s.available i.length = i.length)
    (ht : t.available i.length = i.length) (hs' : exec i s = .next s') (ht' : exec i t = .next t') :
    t'.result = s'.result ∧ t'.text = s'.text := by
  rcases exec_cases i with ⟨ins, hvalid, hexec⟩ | ⟨hone, hexec⟩
  all_goals
    obtain rfl := Host.Outcome.next.inj ((hexec s).symm.trans hs')
    obtain rfl := Host.Outcome.next.inj ((hexec t).symm.trans ht')
  · rw [transact_of_isValid s _ hvalid, transact_of_isValid t _ hvalid, if_pos hs, if_pos ht]
    exact ⟨rfl, rfl⟩
  · rw [hone] at hs ht
    rw [transactInvalid_complete s hs, transactInvalid_complete t ht]
    exact ⟨rfl, rfl⟩

theorem available_of_fetch {s : State} {i : Instr} (hfetch : s.fetch = .ok i) :
    s.available i.length = i.length := by
  rcases fetch_cases s with ⟨havail, j, hfetch', hlen⟩ | ⟨-, hfetch'⟩
  · obtain rfl : j = i := Except.ok.inj (hfetch'.symm.trans hfetch)
    rwa [hlen]
  · cases hfetch'.symm.trans hfetch

/-- Two windows that begin with the same instruction give the same outputs (R221 (e), (f)). -/
theorem step_outputs_eq_of_fetch {i : Instr} {s t s' t' : State} (hs : s.fetch = .ok i)
    (ht : t.fetch = .ok i) (hs' : step s = .next s') (ht' : step t = .next t') :
    t'.result = s'.result ∧ t'.text = s'.text := by
  simp only [step, hs] at hs'
  simp only [step, ht] at ht'
  exact exec_outputs_eq (available_of_fetch hs) (available_of_fetch ht) hs' ht'

/-- A step that gives an Instruction has fetched one. -/
theorem exists_fetch_of_result {s t : State} {ins : Instruction} (h : step s = .next t)
    (hresult : t.result = some (.instruction ins)) : ∃ i, s.fetch = .ok i := by
  rcases fetch_cases s with ⟨-, i, hfetch, -⟩ | ⟨-, hfetch⟩
  · exact ⟨i, hfetch⟩
  · simp only [step, hfetch, transactTruncated_eq] at h
    obtain rfl := Host.Outcome.next.inj h
    simp at hresult

/-! ### `decode_slice` -/

/-- A new cursor's window is the beginning of the bytes. -/
theorem ahead_onBytes (bs : List Byte) : (State.onBytes bs).ahead = bs.take Config.maxLen :=
  peek_eq_take (fun j => (Nat.zero_add j).symm ▸ read_onBytes bs j) _

theorem fetch_onBytes_append {bs : List Byte} {i : Instr} (h : (State.onBytes bs).fetch = .ok i)
    (extra : List Byte) : (State.onBytes (bs ++ extra)).fetch = .ok i := by
  rw [fetch_eq_ok_iff, ahead_onBytes] at h ⊢
  obtain ⟨rest, hdecode⟩ := h
  rw [List.take_append]
  exact ⟨_, decode_append hdecode _⟩

theorem decodeCall_result_onBytes (bs : List Byte) :
    (State.onBytes bs).decodeCall.result = some (decodeSlice bs) := by
  rw [decodeCall_eq_putOut, putOut_result]
  rfl

/-- Settles O49: `decode_slice` is R60 on a new cursor, and so one step; an Instruction comes from
the instruction fetched, which the bytes after it do not change. -/
theorem decodeSliceIsOneStep : Obligations.DecodeSliceIsOneStep := by
  unfold Obligations.DecodeSliceIsOneStep
  refine ⟨fun bs => ⟨_, step_eq_decodeCall _, decodeCall_result_onBytes bs⟩,
    fun bs extra ins h => ?_⟩
  have hresult : (State.onBytes bs).decodeCall.result = some (.instruction ins) :=
    h ▸ decodeCall_result_onBytes bs
  obtain ⟨i, hfetch⟩ := exists_fetch_of_result (step_eq_decodeCall _) hresult
  obtain ⟨hsame, -⟩ := step_outputs_eq_of_fetch hfetch (fetch_onBytes_append hfetch extra)
    (step_eq_decodeCall _) (step_eq_decodeCall _)
  rw [hresult, decodeCall_result_onBytes] at hsame
  exact Option.some.inj hsame

end Sys2Proof.Machine
end

section
/-! The encoding and the opcode table (30_encoding.md). An opcode byte is its family and its low bits,
so the dispatch and the encoder undo each other family by family: the bytes of what the dispatch makes
are the bytes it was given, and every well-formed instruction is made from its own bytes. The
statements on the opcode table, the lengths and the families follow from these two facts. -/

namespace Sys2Proof

/-! ### The fields of an opcode byte and of a 16-bit value -/

theorem opcodeByte_opFamily_opLow (op : Byte) : opcodeByte (opFamily op) (opLow op) = op := by
  rw [opcodeByte, opFamily, opLow_setWidth, ← BitVec.and_or_distrib_left]
  exact BitVec.and_allOnes

theorem opcodeByte_of_opFamily_eq {op family : Byte} (h : opFamily op = family) :
    opcodeByte family (opLow op) = op := h ▸ opcodeByte_opFamily_opLow op

theorem opLow_opcodeByte {family : Byte} (h : opLow family = 0#3) (low : BitVec 3) :
    opLow (opcodeByte family low) = low := by
  have hor : opLow (opcodeByte family low) = opLow family ||| opLow (low.setWidth 8) :=
    BitVec.extractLsb'_or
  have hlow : ∀ l : BitVec 3, opLow (l.setWidth 8) = l := by decide
  rw [hor, h, BitVec.zero_or, hlow]

theorem opFamily_opcodeByte {family : Byte} (h : opLow family = 0#3) (low : BitVec 3) :
    opFamily (opcodeByte family low) = family := by
  have hor : opFamily (opcodeByte family low) = opFamily family ||| opFamily (low.setWidth 8) :=
    BitVec.and_or_distrib_right
  have hlow : ∀ l : BitVec 3, opFamily (l.setWidth 8) = 0#8 := by decide
  have hfamily : opcodeByte (opFamily family) 0#3 = family := h ▸ opcodeByte_opFamily_opLow family
  rw [hor, hlow]
  exact hfamily

/-- Inside a family the low bits tell the opcode byte. -/
theorem opcodeByte_inj {family : Byte} (h : opLow family = 0#3) {low low' : BitVec 3} :
    opcodeByte family low = opcodeByte family low' ↔ low = low' :=
  ⟨fun heq => by rw [← opLow_opcodeByte h low, heq, opLow_opcodeByte h], congrArg _⟩

@[simp] theorem lowByte_value16 (b1 b2 : Byte) : lowByte (value16 b1 b2) = b1 :=
  BitVec.extractLsb'_append_eq_right

@[simp] theorem highByte_value16 (b1 b2 : Byte) : highByte (value16 b1 b2) = b2 :=
  BitVec.extractLsb'_append_eq_left

@[simp] theorem value16_lowByte_highByte (v : Word16) : value16 (lowByte v) (highByte v) = v := by
  have hjoin : value16 (lowByte v) (highByte v) = v.extractLsb' 0 16 :=
    BitVec.extractLsb'_append_extractLsb'_eq_extractLsb' (Nat.zero_add 8).symm
  rw [hjoin, BitVec.extractLsb'_eq_self]

/-! ### The five irregular families (R49) -/

theorem assemble_family58 (l : BitVec 3) (b1 b2 : Byte) :
    assemble (opcodeByte 0x58#8 l) b1 b2 = if l = 1#3 then .scf else .op5xHi l := by
  have hscf : opcodeByte 0x58#8 l = 0x59#8 ↔ l = 1#3 := opcodeByte_inj (low' := 1#3) rfl
  simp (disch := decide) only [assemble, opFamily_opcodeByte, opLow_opcodeByte, hscf]

theorem assemble_family68 (l : BitVec 3) (b1 b2 : Byte) :
    assemble (opcodeByte 0x68#8 l) b1 b2 = if l = 1#3 then .ccf else .op6xHi l := by
  have hccf : opcodeByte 0x68#8 l = 0x69#8 ↔ l = 1#3 := opcodeByte_inj (low' := 1#3) rfl
  simp (disch := decide) only [assemble, opFamily_opcodeByte, opLow_opcodeByte, hccf]

theorem assemble_family90 (l : BitVec 3) (b1 b2 : Byte) :
    assemble (opcodeByte 0x90#8 l) b1 b2 =
      if l = 0#3 then .jnz b1 else if l = 1#3 then .jnc b1 else .jccLowGroup l b1 := by
  simp (disch := decide) only [assemble, opFamily_opcodeByte, opLow_opcodeByte]

theorem assemble_family98 (l : BitVec 3) (b1 b2 : Byte) :
    assemble (opcodeByte 0x98#8 l) b1 b2 =
      if l = 0#3 then .jz b1 else if l = 1#3 then .jc b1 else .jccHighGroup l b1 := by
  simp (disch := decide) only [assemble, opFamily_opcodeByte, opLow_opcodeByte]

theorem assemble_familyB8 (l : BitVec 3) (b1 b2 : Byte) :
    assemble (opcodeByte 0xb8#8 l) b1 b2 =
      if l = 1#3 then .ret else if l = 2#3 then .iret else if l = 4#3 then .jmp (value16 b1 b2)
      else if l = 7#3 then .call (value16 b1 b2) else .invalid (opcodeByte 0xb8#8 l) := by
  have hret : opcodeByte 0xb8#8 l = 0xb9#8 ↔ l = 1#3 := opcodeByte_inj (low' := 1#3) rfl
  have hiret : opcodeByte 0xb8#8 l = 0xba#8 ↔ l = 2#3 := opcodeByte_inj (low' := 2#3) rfl
  have hjmp : opcodeByte 0xb8#8 l = 0xbc#8 ↔ l = 4#3 := opcodeByte_inj (low' := 4#3) rfl
  have hcall : opcodeByte 0xb8#8 l = 0xbf#8 ↔ l = 7#3 := opcodeByte_inj (low' := 7#3) rfl
  simp (disch := decide) only [assemble, opFamily_opcodeByte, hret, hiret, hjmp, hcall]

/-! ### What the dispatch makes -/

/-- The bytes of what the dispatch makes are those it was given, as many as the opcode byte asks for. -/
theorem encode_assemble (op b1 b2 : Byte) :
    encode (assemble op b1 b2) = [op, b1, b2].take (1 + followOn op) := by
  have hwide := @ne_jmp_call_of_opFamily_ne op
  have hbyte := @opcodeByte_of_opFamily_eq op
  unfold assemble
  split
  case h_12 | h_14 | h_19 | h_20 | h_21 =>
    -- the irregular families, where the low bits may be no field of the instruction
    split_ifs <;> simp_all [encode, followOn, opcodeByte]
  all_goals simp_all [encode, followOn]

/-- Different opcode bytes begin different instructions. -/
theorem opcode_eq_of_assemble_eq {op op' b1 b2 c1 c2 : Byte}
    (h : assemble op b1 b2 = assemble op' c1 c2) : op = op' := by
  have hbytes := congrArg encode h
  rw [encode_assemble, encode_assemble, Nat.add_comm, Nat.add_comm 1] at hbytes
  exact (List.cons.inj hbytes).1

/-- The families with a byte that begins an instruction (R55). -/
def populatedFamilies : List Byte :=
  [0x00#8, 0x08#8, 0x10#8, 0x18#8, 0x20#8, 0x28#8, 0x30#8, 0x38#8, 0x40#8, 0x48#8, 0x50#8, 0x58#8,
   0x60#8, 0x68#8, 0x70#8, 0x78#8, 0x80#8, 0x88#8, 0x90#8, 0x98#8, 0xb8#8, 0xc0#8, 0xc8#8, 0xd0#8,
   0xd8#8, 0xe0#8, 0xe8#8, 0xf0#8, 0xf8#8]

theorem isInvalidByte_of_not_populated :
    ∀ {op : Byte}, opFamily op ∉ populatedFamilies → isInvalidByte op = true := by decide

theorem isInvalidByte_of_familyB8 : ∀ {op : Byte}, opFamily op = 0xb8#8 → op ≠ 0xb9#8 →
    op ≠ 0xba#8 → op ≠ 0xbc#8 → op ≠ 0xbf#8 → isInvalidByte op = true := by decide

/-- The dispatch gives a field no value that R51 and R57 take out of it. -/
theorem wellFormed_assemble (op b1 b2 : Byte) : (assemble op b1 b2).wellFormed = true := by
  unfold assemble
  split
  case h_12 | h_14 =>
    rename_i hfamily
    split_ifs with hop
    · rfl
    · refine bne_iff_ne.2 fun hlow => hop ?_
      rw [← opcodeByte_of_opFamily_eq hfamily, hlow]
      rfl
  case h_19 | h_20 =>
    split_ifs with h0 h1
    · rfl
    · rfl
    · have htwo : 2#3 ≤ opLow op := by bv_omega
      simpa [Instr.wellFormed] using htwo
  case h_21 =>
    rename_i hfamily
    split_ifs with hret hiret hjmp hcall
    case neg => exact isInvalidByte_of_familyB8 hfamily hret hiret hjmp hcall
    all_goals rfl
  case h_30 => exact isInvalidByte_of_not_populated (by simp_all [populatedFamilies])
  all_goals rfl

/-- The follow-on bytes do not choose the mnemonic (R59). -/
theorem assemble_mnemonic (op b1 b2 : Byte) :
    (assemble op b1 b2).mnemonic = (assemble op 0#8 0#8).mnemonic := by
  unfold assemble
  split
  case h_12 | h_14 | h_19 | h_20 | h_21 => split_ifs <;> rfl
  all_goals rfl

/-! ### The invalid bytes (R57) -/

theorem assemble_of_isInvalidByte {op : Byte} (h : isInvalidByte op = true) (b1 b2 : Byte) :
    assemble op b1 b2 = .invalid op := by
  have hzero : ∀ x : Byte, isInvalidByte x = true → assemble x 0#8 0#8 = .invalid x := by decide
  have hfollow := Laws.EncodedLength.followOn_invalid op h
  rw [← hzero op h]
  exact assemble_congr (by omega) (by omega)

theorem isInvalidByte_of_assemble_eq {op op' b1 b2 : Byte} (h : assemble op b1 b2 = .invalid op') :
    isInvalidByte op = true := by
  have hvalid : isInvalidByte op' = true :=
    (congrArg Instr.wellFormed h).symm.trans (wellFormed_assemble op b1 b2)
  have hop : op = op' :=
    opcode_eq_of_assemble_eq (h.trans (assemble_of_isInvalidByte hvalid b1 b2).symm)
  rwa [hop]

/-! ### Decode and encode -/

/-- Every well-formed instruction is what the dispatch makes of its own bytes. -/
theorem assemble_encode {i : Instr} (h : i.wellFormed = true) :
    assemble ((encode i).getD 0 0#8) ((encode i).getD 1 0#8) ((encode i).getD 2 0#8) = i := by
  cases i with
  | invalid op => exact assemble_of_isInvalidByte h 0#8 0#8
  | scf | ccf | ret | iret => rfl
  | jnz | jnc | jz | jc | jmp | call => simp [encode, assemble, opFamily, opLow]
  | op5xHi k => exact (assemble_family58 k 0#8 0#8).trans (if_neg (bne_iff_ne.1 h))
  | op6xHi k => exact (assemble_family68 k 0#8 0#8).trans (if_neg (bne_iff_ne.1 h))
  | jccLowGroup c r =>
    have h0 : c ≠ 0#3 := by rintro rfl; contradiction
    have h1 : c ≠ 1#3 := by rintro rfl; contradiction
    exact (assemble_family90 c r 0#8).trans (by rw [if_neg h0, if_neg h1])
  | jccHighGroup c r =>
    have h0 : c ≠ 0#3 := by rintro rfl; contradiction
    have h1 : c ≠ 1#3 := by rintro rfl; contradiction
    exact (assemble_family98 c r 0#8).trans (by rw [if_neg h0, if_neg h1])
  | family00 | family08 | family10 | family18 | family20 | xor | family30 | family38 | family40 | sbc
  | family50 | bit | movAccToReg | cmp | push | pop | incW | storeAbs16 | storeIndirect
  | storeIndirectOffset | loadImm8 | loadAbs16 | loadIndirect | loadIndirectOffset =>
    simp only [encode, List.getD_cons_zero, List.getD_cons_succ, List.getD_nil]
    simp (disch := decide) only [assemble, opFamily_opcodeByte, opLow_opcodeByte,
      value16_lowByte_highByte]

/-- The decoder takes the bytes the opcode byte asks for and dispatches on them. -/
theorem decode_take_append (op b1 b2 : Byte) (rest : List Byte) :
    decode ([op, b1, b2].take (1 + followOn op) ++ rest) = .ok (assemble op b1 b2, rest) := by
  have hle := followOn_le_two op
  obtain hf | hf | hf : followOn op = 0 ∨ followOn op = 1 ∨ followOn op = 2 := by omega
  · have hsame : assemble op 0#8 0#8 = assemble op b1 b2 := assemble_congr (by omega) (by omega)
    simp [decode, hf, hsame]
  · have hsame : assemble op b1 0#8 = assemble op b1 b2 := assemble_congr (fun _ => rfl) (by omega)
    simp [decode, hf, hsame]
  · simp [decode, hf]

theorem decode_encode {i : Instr} (h : i.wellFormed = true) (rest : List Byte) :
    decode (encode i ++ rest) = .ok (i, rest) := by
  obtain ⟨op, b1, b2, rfl⟩ : ∃ op b1 b2, assemble op b1 b2 = i := ⟨_, _, _, assemble_encode h⟩
  rw [encode_assemble, decode_take_append]

/-- Three bytes are enough for every opcode byte. -/
theorem decode_three (op b1 b2 : Byte) :
    decode [op, b1, b2] = .ok (assemble op b1 b2, [b1, b2].drop (followOn op)) := by
  simpa [Nat.add_comm 1] using decode_take_append op b1 b2 ([b1, b2].drop (followOn op))

/-- Settles O1: the bytes of a well-formed instruction are those the dispatch makes it from. -/
theorem decodeOfEncodeIsTheInstruction : Obligations.DecodeOfEncodeIsTheInstruction := by
  unfold Obligations.DecodeOfEncodeIsTheInstruction
  exact fun _ rest h => decode_encode h rest

/-- Settles O2: in each of the decoder's three answers the instruction is what the dispatch makes. -/
theorem encodeOfDecodeIsTheBytes : Obligations.EncodeOfDecodeIsTheBytes := by
  unfold Obligations.EncodeOfDecodeIsTheBytes
  intro bs i rest h
  rcases decode_ok_cases h with ⟨op, hf, rfl, rfl⟩ | ⟨op, b1, hf, rfl, rfl⟩ |
    ⟨op, b1, b2, hf, rfl, rfl⟩
  all_goals exact ⟨wellFormed_assemble .., by rw [encode_assemble, hf]; rfl⟩

/-- Settles O3: each word is the encoding of the instruction it stands for. -/
theorem writtenWordsDecode : Obligations.WrittenWordsDecode := by
  unfold Obligations.WrittenWordsDecode
  exact ⟨decode_encode (i := .xor 1#3) rfl [], decode_encode (i := .scf) rfl [],
    decode_encode (i := .op5xHi 2#3) rfl [], decode_encode (i := .jnz 0x50#8) rfl [],
    decode_encode (i := .jccLowGroup 3#3 0x10#8) rfl [], decode_encode (i := .jmp 0xd98a#16) rfl [],
    decode_encode (i := .storeAbs16 1#3 0xedf2#16) rfl [],
    decode_encode (i := .loadImm8 4#3 0x0e#8) rfl [], decode_encode (i := .invalid 0xbd#8) rfl []⟩

/-! ### The opcode table and the counts -/

/-- The opcode table, byte by byte: one row, with the mnemonic and the length of the dispatch. -/
theorem opcodeTable_filter_selects : ∀ op : Byte,
    (opcodeTable.filter fun row => row.selects op).map (fun row => (row.mnemonic, row.length)) =
      [((assemble op 0#8 0#8).mnemonic, 1 + followOn op)] := by decide

/-- Settles O4: the table is checked byte by byte, and no follow-on byte changes what it lists. -/
theorem decoderAgreesWithTheOpcodeTable : Obligations.DecoderAgreesWithTheOpcodeTable := by
  unfold Obligations.DecoderAgreesWithTheOpcodeTable
  intro op
  obtain ⟨row, hfilter, hrow⟩ := List.map_eq_singleton_iff.1 (opcodeTable_filter_selects op)
  obtain ⟨hmnemonic, hlength⟩ := Prod.mk.inj hrow
  refine ⟨row, hfilter, fun b1 b2 => ⟨_, _, decode_three op b1 b2, ?_, ?_, ?_⟩⟩
  · rw [assemble_mnemonic, hmnemonic]
  · rw [assemble_length, hlength]
  · have hle := followOn_le_two op
    simp only [List.length_drop, List.length_cons, List.length_nil, hlength]
    omega

/-- Settles O6: what is counted depends on the opcode byte only, by `isInvalidByte` and `followOn`. -/
theorem countsOfTheOpcodeSpace : Obligations.CountsOfTheOpcodeSpace := by
  unfold Obligations.CountsOfTheOpcodeSpace
  intro b1 b2 read decodes readsInvalid hasLength valid
  have hread (n : Nat) : read n = .ok (assemble (BitVec.ofNat 8 n) b1 b2,
      [b1, b2].drop (followOn (BitVec.ofNat 8 n))) := decode_three ..
  have hvalid {n : Nat} {op : Byte} (hn : isInvalidByte (BitVec.ofNat 8 n) = false) :
      assemble (BitVec.ofNat 8 n) b1 b2 ≠ .invalid op := fun h =>
    Bool.false_ne_true (hn.symm.trans (isInvalidByte_of_assemble_eq h))
  have hdecodes : decodes = fun n => !isInvalidByte (BitVec.ofNat 8 n) := by
    funext n
    simp only [decodes, hread]
    cases hn : isInvalidByte (BitVec.ofNat 8 n) with
    | true => rw [assemble_of_isInvalidByte hn]; rfl
    | false => split <;> simp_all
  have hreads : readsInvalid = fun n => isInvalidByte (BitVec.ofNat 8 n) := by
    funext n
    simp only [readsInvalid, hread]
    cases hn : isInvalidByte (BitVec.ofNat 8 n) with
    | true => simp [assemble_of_isInvalidByte hn, Laws.EncodedLength.followOn_invalid _ hn]
    | false => split <;> simp_all
  have hlength : hasLength = fun k n => 2 - followOn (BitVec.ofNat 8 n) + k == 3 := by
    funext k n
    simp only [hasLength, hread, List.length_drop]
    rfl
  simp only [valid, hdecodes, hreads, hlength, List.filter_filter]
  exact ⟨rfl, rfl, rfl, rfl, rfl, rfl⟩

/-! ### Regular and irregular families (R49) -/

/-- The values of the five irregular families (R49). -/
def irregularFamilies : List Nat := [0x58, 0x68, 0x90, 0x98, 0xb8]

/-- In a regular family the low bits do not choose the mnemonic. -/
theorem assemble_mnemonic_of_regular {op op' : Byte} (hfamily : opFamily op = opFamily op')
    (hregular : (opFamily op').toNat ∉ irregularFamilies) (b1 b2 : Byte) :
    (assemble op b1 b2).mnemonic = (assemble op' b1 b2).mnemonic := by
  unfold assemble
  rw [hfamily]
  split
  case h_12 | h_14 | h_19 | h_20 | h_21 =>
    rename_i heq
    exact absurd (by rw [heq]; decide) hregular
  all_goals rfl

theorem opFamily_ofNat : ∀ (f : Fin 32) (l : Fin 8),
    opFamily (BitVec.ofNat 8 (8 * f.val + l.val)) = BitVec.ofNat 8 (8 * f.val) := by decide

/-- In an irregular family the low bits 0 and 1 are of two opcodes. -/
theorem assemble_mnemonic_ne_of_irregular : ∀ f : Fin 32, 8 * f.val ∈ irregularFamilies →
    (assemble (BitVec.ofNat 8 (8 * f.val + 1)) 0#8 0#8).mnemonic ≠
      (assemble (BitVec.ofNat 8 (8 * f.val)) 0#8 0#8).mnemonic := by decide

/-- Settles O7: the low bits choose the mnemonic in the five families and in no other; that they are a
field elsewhere is that different opcode bytes begin different instructions. -/
theorem irregularFamiliesAreFive : Obligations.IrregularFamiliesAreFive := by
  unfold Obligations.IrregularFamiliesAreFive
  refine ⟨fun f => ⟨fun ⟨l, hne⟩ => ?_, fun hf => ⟨1, assemble_mnemonic_ne_of_irregular f hf⟩⟩,
    fun b1 b2 l => ⟨assemble_family58 l b1 b2, assemble_family68 l b1 b2, assemble_family90 l b1 b2,
      assemble_family98 l b1 b2, assemble_familyB8 l b1 b2⟩, fun f _ l m h => ?_⟩
  · by_contra hregular
    have hbase := opFamily_ofNat f 0
    rw [Fin.val_zero, Nat.add_zero] at hbase
    refine hne (assemble_mnemonic_of_regular ((opFamily_ofNat f l).trans hbase.symm) ?_ 0#8 0#8)
    rw [hbase, BitVec.toNat_ofNat, Nat.mod_eq_of_lt (by omega)]
    exact hregular
  · have hop := congrArg BitVec.toNat (opcode_eq_of_assemble_eq h)
    rw [BitVec.toNat_ofNat, BitVec.toNat_ofNat] at hop
    omega

end Sys2Proof

namespace Sys2Proof.Machine

/-! ### The step, by the opcode byte -/

/-- Settles O29: the dispatch and R60 agree where the opcode byte is there, and both are `Truncated`
where it is not (`step_eq_decodeCall`). -/
theorem stepIsTheDecodeAlgorithm : Obligations.StepIsTheDecodeAlgorithm := by
  unfold Obligations.StepIsTheDecodeAlgorithm
  exact step_eq_decodeCall

/-- The lengths of R45, interval by interval, are those the opcode byte asks for. -/
theorem one_add_followOn_eq : ∀ op : Byte, 1 + followOn op =
    (if op ≤ 0x8f#8 then 1 else if op ≤ 0x9f#8 then 2
     else if op = 0xb9#8 ∨ op = 0xba#8 then 1 else if op = 0xbc#8 ∨ op = 0xbf#8 then 3
     else if op ≤ 0xc7#8 then 1 else if op ≤ 0xcf#8 then 3 else if op ≤ 0xd7#8 then 1
     else if op ≤ 0xe7#8 then 2 else if op ≤ 0xef#8 then 3 else if op ≤ 0xf7#8 then 1 else 2) := by
  decide

/-- An Instruction that a step gives is as long as the opcode byte asks for. -/
theorem byteLength_of_step {s t : State} {op : Byte} {ins : Instruction}
    (hread : s.stream.read s.pos = some op) (hstep : step s = .next t)
    (hresult : t.result = some (.instruction ins)) : ins.byteLength = 1 + followOn op := by
  have hwanted : s.wanted = 1 + followOn op := by simp only [State.wanted, hread]
  rcases step_cases s with ⟨-, out, -, hlength, h⟩ | ⟨-, -, h⟩ | ⟨-, h⟩
  all_goals
    obtain rfl := Host.Outcome.next.inj (h.symm.trans hstep)
  · obtain rfl : out = ins := by simpa using hresult
    rw [hlength, hwanted]
  · simp at hresult
  · simp at hresult

theorem available_one_of_read {s : State} {op : Byte} (h : s.stream.read s.pos = some op) :
    s.available 1 = 1 := by
  simp [State.available, peek_succ, h]

/-- At an invalid byte a step takes the error `InvalidOpcode`, whatever follows (R57). -/
theorem step_of_isInvalidByte {s : State} {op : Byte} (hread : s.stream.read s.pos = some op)
    (hinvalid : isInvalidByte op = true) : step s = .next (s.afterError 1 .invalidOpcode) := by
  rw [step_of_read hread, assemble_of_isInvalidByte hinvalid]
  exact congrArg _ (transactInvalid_complete s (available_one_of_read hread))

theorem isInvalidByte_of_interval : ∀ op : Byte,
    0xa0#8 ≤ op ∧ op ≤ 0xb8#8 ∨ op ∈ [0xbb#8, 0xbd#8, 0xbe#8] → isInvalidByte op = true := by
  decide

/-- Settles O5: the length is the one the opcode byte asks for, and an invalid byte ends in an error. -/
theorem lengthFollowsFromTheOpcodeByte : Obligations.LengthFollowsFromTheOpcodeByte := by
  unfold Obligations.LengthFollowsFromTheOpcodeByte
  intro s t op hread hstep
  refine ⟨fun ins hresult => ?_, fun hop ins hresult => ?_⟩
  · rw [byteLength_of_step hread hstep hresult, one_add_followOn_eq]
  · have herror := step_of_isInvalidByte hread (isInvalidByte_of_interval op hop)
    obtain rfl := Host.Outcome.next.inj (herror.symm.trans hstep)
    simp at hresult

/-! ### The rules of an instruction -/

/-- An instruction meets its rule when its meaning is the transaction of a valid record, as long as its
encoding. -/
theorem meetsRule_of_transact {i : Instr} {ins : Instruction} (hwf : i.wellFormed = true)
    (hvalid : isValid ins = true)
    (hexec : ∀ s, exec i s = .next (s.transact (encode i).length ins)) :
    MeetsRule i (encode i) { ins with byteLength := (encode i).length }
      (template ins.opcode ins.slot0 ins.slot1) := by
  refine ⟨rfl, rfl, decode_encode hwf, fun s h => ?_, fun s h => ?_⟩
  · rw [hexec, transact_of_isValid s _ hvalid, if_pos h]
  · exact ⟨_, (hexec s).trans (congrArg _ (transact_truncated s _ ins h)), rfl, rfl, rfl⟩

/-- Settles O12: a family's meaning is the transaction of its one record, valid whichever opcode
FAMILY_OP gives. -/
theorem openFamiliesMeetTheirRule : Obligations.OpenFamiliesMeetTheirRule := by
  unfold Obligations.OpenFamiliesMeetTheirRule
  intro f n
  have hvalid := isValid_build1_familyOp f n.toNat
  cases f <;> exact meetsRule_of_transact rfl hvalid fun _ => rfl

/-- Settles O25: an invalid byte is its own encoding, and its meaning the transaction of one byte. -/
theorem invalidByteTakesInvalidOpcode : Obligations.InvalidByteTakesInvalidOpcode := by
  unfold Obligations.InvalidByteTakesInvalidOpcode
  exact fun op hop => ⟨rfl, decode_encode (i := .invalid op) hop,
    fun s h => congrArg _ (transactInvalid_complete s h),
    fun s h => congrArg _ (transactInvalid_truncated s h)⟩

end Sys2Proof.Machine
end

section
/-! The register-form instructions (40_register_form.md). The families 0x00 to 0x50 carry the eleven
names one each (R61), so a name's rule is the rule of its family; the five forms behind them have an
opcode of their own. What is left of a rule is its text: literal characters and decimal digits. -/

namespace Sys2Proof.Machine

/-! ### The texts of one register or one pair -/

/-- Literal text can be split at any place. -/
theorem lit_append (s t : String) : lit (s ++ t) = lit s ++ lit t := String.toList_append

theorem registerText_eq (n : Nat) : registerText n = lit "r" ++ decimal n := rfl

theorem pairText_eq (n : Nat) :
    pairText n = lit "r" ++ decimal n ++ lit ":r" ++ decimal (n + 1) := by
  simp only [pairText, registerText_eq, show ":r" = ":" ++ "r" from rfl, lit_append,
    List.append_assoc]

/-- The letter of a register name, written as the end of the literal text before it. -/
theorem lit_append_registerText (s : String) (n : Nat) :
    lit s ++ registerText n = lit (s ++ "r") ++ decimal n := by
  rw [registerText_eq, lit_append, List.append_assoc]

/-- The pair of a text's end, written the same way. -/
theorem lit_append_pairText (s : String) (n : Nat) :
    lit s ++ pairText n = lit (s ++ "r") ++ decimal n ++ lit ":r" ++ decimal (n + 1) := by
  simp only [pairText_eq, lit_append, List.append_assoc]

/-! ### The eleven names of FAMILY_OP -/

/-- The eleven register-form names, each with the literal text before its register (R70 to R80). -/
def registerForms : List (Opcode × String) :=
  [(.adc, "adc r0, "), (.or, "r0 |= "), (.and, "r0 &= "), (.xor, "r0 ^= "), (.add, "r0 += "),
    (.sbc, "sbc r0, "), (.rcl, "rcl "), (.rcr, "rcr "), (.inc, "inc "), (.dec, "dec "),
    (.movRegToAcc, "r0 <- ")]

theorem registerForms_map_fst : registerForms.map Prod.fst = familyNames := rfl

/-- The template of a register form is its literal text and the register, for each of the eleven. -/
theorem template_of_mem_registerForms {form : Opcode × String} (h : form ∈ registerForms)
    (n : Nat) :
    template form.1 (.register n) .empty = lit form.2 ++ registerText n := by
  simp only [registerForms, List.mem_cons, List.not_mem_nil, or_false] at h
  rcases h with rfl | rfl | rfl | rfl | rfl | rfl | rfl | rfl | rfl | rfl | rfl <;> rfl

/-- The rule of a family, for the register form its opcode is. -/
theorem meetsRule_of_mem_registerForms {form : Opcode × String} (h : form ∈ registerForms)
    {f : RegFamily} (hf : familyOp f = form.1) (n : BitVec 3) :
    MeetsRule (familyInstr f n) [familyByte f ||| n.setWidth 8]
      ⟨form.1, .register n.toNat, .empty, 1, 1⟩ (lit form.2 ++ registerText n.toNat) := by
  rw [← template_of_mem_registerForms h, ← hf]
  exact openFamiliesMeetTheirRule f n

/-- Settles O13: a name is the value of FAMILY_OP at one family, by bijectivity, and that family's
rule is the name's. -/
theorem elevenRegisterFormsMeetTheirRules : Obligations.ElevenRegisterFormsMeetTheirRules := by
  unfold Obligations.ElevenRegisterFormsMeetTheirRules
  intro form (hform : form ∈ registerForms)
  obtain ⟨-, -, hinj, hsurj⟩ := familyOpIsAPinnedBijection
  have hname : form.1 ∈ familyNames := registerForms_map_fst ▸ List.mem_map_of_mem hform
  obtain ⟨f, hf⟩ := (hsurj form.1).1 hname
  refine ⟨f, hf, fun g hg => hinj g f (hg.trans hf.symm), fun n => ?_⟩
  rw [List.append_assoc, ← registerText_eq]
  exact meetsRule_of_mem_registerForms hform hf n

/-- Settles O14: the two names that FAMILY_OP pins, at the families 0x28 and 0x48. -/
theorem xorAndSbcMeetTheirRules : Obligations.XorAndSbcMeetTheirRules := by
  unfold Obligations.XorAndSbcMeetTheirRules
  intro n
  obtain ⟨hxor, hsbc, -, -⟩ := familyOpIsAPinnedBijection
  have hxorRule := meetsRule_of_mem_registerForms (form := (.xor, "r0 ^= ")) (by decide) hxor n
  have hsbcRule := meetsRule_of_mem_registerForms (form := (.sbc, "sbc r0, ")) (by decide) hsbc n
  rw [lit_append_registerText] at hxorRule hsbcRule
  exact ⟨hxorRule, hsbcRule⟩

/-! ### The forms with an opcode of their own -/

/-- Settles O15: the meaning is the transaction of the one record `Push` on `Register{n}`. -/
theorem pushMeetsItsRule : Obligations.PushMeetsItsRule := by
  unfold Obligations.PushMeetsItsRule
  intro n
  have htext : template .push (.register n.toNat) .empty = lit "push r" ++ decimal n.toNat :=
    lit_append_registerText "push " n.toNat
  rw [← htext]
  exact meetsRule_of_transact (i := .push n) rfl rfl fun _ => rfl

/-- Settles O16: each meaning is the transaction of one record; `MovAccToReg` has its register
before its literal text, `IncW` a pair. -/
theorem otherRegisterFormsMeetTheirRules : Obligations.OtherRegisterFormsMeetTheirRules := by
  unfold Obligations.OtherRegisterFormsMeetTheirRules
  intro n
  have hcmp : template .cmp (.register n.toNat) .empty = lit "cmp r0, r" ++ decimal n.toNat :=
    lit_append_registerText "cmp r0, " n.toNat
  have hpop : template .pop (.register n.toNat) .empty = lit "pop r" ++ decimal n.toNat :=
    lit_append_registerText "pop " n.toNat
  have hincW : template .incW (.registerPair n.toNat) .empty =
      lit "incw r" ++ decimal n.toNat ++ lit ":r" ++ decimal (n.toNat + 1) :=
    lit_append_pairText "incw " n.toNat
  rw [← registerText_eq, ← hcmp, ← hpop, ← hincW]
  exact ⟨meetsRule_of_transact (i := .movAccToReg n) rfl rfl fun _ => rfl,
    meetsRule_of_transact (i := .cmp n) rfl rfl fun _ => rfl,
    meetsRule_of_transact (i := .pop n) rfl rfl fun _ => rfl,
    meetsRule_of_transact (i := .incW n) rfl rfl fun _ => rfl⟩

end Sys2Proof.Machine
end

section
/-! The flag, bit and opaque selector instructions (41_flag_selector.md). The three selector forms have
the low bits of their opcode byte as an `Imm8` (R51), so one lemma gives the digits of their texts; a
selector other than 1 is what makes `Op5xHi` and `Op6xHi` well-formed beside `Scf` and `Ccf`. -/

namespace Sys2Proof.Machine

/-! ### The text of a selector -/

/-- The digits of a selector are those of its three bits (R138), and the prefix of the number is the end
of the literal text before it. -/
theorem lit_append_selectorOperand (s : String) (k : BitVec 3) :
    lit s ++ renderOperand (.imm8 (k.setWidth 8)) = lit (s ++ "0x") ++ hexPadded 2 k.toNat := by
  have hvalue : (k.setWidth 8).toNat = k.toNat := BitVec.toNat_setWidth_of_le (by decide)
  simp only [renderOperand, hvalue, lit_append, List.append_assoc]

/-! ### Families 0x58, 0x60 and 0x68 -/

/-- Settles O17: each meaning is the transaction of one record, that of `Op5xHi` at every selector but
the one whose byte is `Scf`. -/
theorem scfCcfAndOp5xHiMeetTheirRules : Obligations.ScfCcfAndOp5xHiMeetTheirRules := by
  unfold Obligations.ScfCcfAndOp5xHiMeetTheirRules
  refine ⟨meetsRule_of_transact (i := .scf) rfl rfl fun _ => rfl,
    meetsRule_of_transact (i := .ccf) rfl rfl fun _ => rfl, fun k hk => ?_⟩
  have htext : template .op5xHi (.imm8 (k.setWidth 8)) .empty =
      lit "op5xhi 0x" ++ hexPadded 2 k.toNat := lit_append_selectorOperand "op5xhi " k
  rw [← htext]
  exact meetsRule_of_transact (i := .op5xHi k) (bne_iff_ne.2 hk) rfl fun _ => rfl

/-- Settles O18: `Bit` is well-formed at every selector, `Op6xHi` at every selector but the one whose
byte is `Ccf`. -/
theorem bitAndOp6xHiMeetTheirRules : Obligations.BitAndOp6xHiMeetTheirRules := by
  unfold Obligations.BitAndOp6xHiMeetTheirRules
  refine ⟨fun k => ?_, fun k hk => ?_⟩
  · have htext : template .bit (.imm8 (k.setWidth 8)) .empty =
        lit "bit 0x" ++ hexPadded 2 k.toNat := lit_append_selectorOperand "bit " k
    rw [← htext]
    exact meetsRule_of_transact (i := .bit k) rfl rfl fun _ => rfl
  · have htext : template .op6xHi (.imm8 (k.setWidth 8)) .empty =
        lit "op6xhi 0x" ++ hexPadded 2 k.toNat := lit_append_selectorOperand "op6xhi " k
    rw [← htext]
    exact meetsRule_of_transact (i := .op6xHi k) (bne_iff_ne.2 hk) rfl fun _ => rfl

end Sys2Proof.Machine
end

section
/-! The control-transfer instructions (42_control_transfer.md), with `LoadAbs16`, which has two bytes
of a wide value as `Jmp` and `Call` do. The displacement is one signed byte, so one lemma for each shape
of record makes the branches valid; the wide value is split into its bytes by one rule of their own.
Behind them stands what a caller computes: which operand names a target is told by the signature. -/

namespace Sys2Proof.Machine

/-! ### The relative branches -/

/-- A record of one displacement is valid for whatever byte the displacement is read from. -/
theorem isValid_build1_relativeBranch {opc : Opcode} (h : signature opc = [.relativeBranch])
    (r : Byte) : isValid (build1 opc (.relativeBranch (signed8 r))) = true := by
  simp [isValid_iff, build1, h, variant, operandInRange, signed8_bounds]

/-- The same for a record of a selector and a displacement. -/
theorem isValid_build2_relativeBranch {opc : Opcode} (h : signature opc = [.imm8, .relativeBranch])
    (k r : Byte) : isValid (build2 opc (.imm8 k) (.relativeBranch (signed8 r))) = true := by
  simp [isValid_iff, build2, h, variant, operandInRange, signed8_bounds]

/-- The digits of a jcc selector are those of its three bits (R169). -/
theorem selectorText_setWidth (c : BitVec 3) : selectorText (.imm8 (c.setWidth 8)) = hex c.toNat :=
  congrArg hex (BitVec.toNat_setWidth_of_le (by decide))

/-- Settles O19: each meaning is the transaction of one record, its displacement the signed byte. -/
theorem relativeBranchesMeetTheirRules : Obligations.RelativeBranchesMeetTheirRules := by
  unfold Obligations.RelativeBranchesMeetTheirRules
  intro r
  rw [← signed8_eq_toInt]
  exact ⟨
    meetsRule_of_transact (i := .jnz r) rfl (isValid_build1_relativeBranch rfl r) fun _ => rfl,
    meetsRule_of_transact (i := .jnc r) rfl (isValid_build1_relativeBranch rfl r) fun _ => rfl,
    meetsRule_of_transact (i := .jz r) rfl (isValid_build1_relativeBranch rfl r) fun _ => rfl,
    meetsRule_of_transact (i := .jc r) rfl (isValid_build1_relativeBranch rfl r) fun _ => rfl⟩

/-- Settles O20: a selector from 2 on is what makes the two groups well-formed beside the four named
branches. -/
theorem jccGroupsMeetTheirRules : Obligations.JccGroupsMeetTheirRules := by
  unfold Obligations.JccGroupsMeetTheirRules
  intro c r hc
  have hwf : decide (2#3 ≤ c) = true := decide_eq_true hc
  rw [← signed8_eq_toInt, ← selectorText_setWidth]
  exact ⟨meetsRule_of_transact (i := .jccLowGroup c r) hwf
      (isValid_build2_relativeBranch rfl (c.setWidth 8) r) fun _ => rfl,
    meetsRule_of_transact (i := .jccHighGroup c r) hwf
      (isValid_build2_relativeBranch rfl (c.setWidth 8) r) fun _ => rfl⟩

/-! ### The forms with a wide value -/

/-- The rule of a three-byte instruction of a wide value, whose last two bytes are the value's own,
the low byte first (R53). -/
theorem meetsRule_of_transact_wide {i : Instr} {op l h : Byte} {ins : Instruction}
    (hwf : i.wellFormed = true) (hvalid : isValid ins = true)
    (hencode : encode i = [op, lowByte (value16 l h), highByte (value16 l h)])
    (hexec : ∀ s, exec i s = .next (s.transact 3 ins)) :
    MeetsRule i [op, l, h] { ins with byteLength := 3 }
      (template ins.opcode ins.slot0 ins.slot1) := by
  rw [lowByte_value16, highByte_value16] at hencode
  have hrule := meetsRule_of_transact hwf hvalid (fun s => by rw [hencode]; exact hexec s)
  rwa [hencode] at hrule

/-- The `0x` of a wide immediate is the end of the literal text before it (R139). -/
theorem lit_append_wideOperand (s : String) (v : Word16) :
    lit s ++ renderOperand (.imm16 v) = lit (s ++ "0x") ++ hexPadded 4 v.toNat := by
  simp only [renderOperand, lit_append, List.append_assoc]

/-- Settles O21: `Ret` and `Iret` are transactions of their one byte, `Jmp` of a wide value. -/
theorem retIretAndJmpMeetTheirRules : Obligations.RetIretAndJmpMeetTheirRules := by
  unfold Obligations.RetIretAndJmpMeetTheirRules
  refine ⟨meetsRule_of_transact (i := .ret) rfl rfl fun _ => rfl,
    meetsRule_of_transact (i := .iret) rfl rfl fun _ => rfl, fun l h => ?_⟩
  have htext : template .jmp (.imm16 (h ++ l)) .empty =
      lit "jmp 0x" ++ hexPadded 4 (h ++ l).toNat := lit_append_wideOperand "jmp " (h ++ l)
  rw [← htext]
  exact meetsRule_of_transact_wide (i := .jmp (value16 l h)) rfl rfl rfl fun _ => rfl

/-- The text of `LoadAbs16`, its literal pieces joined (R156). -/
theorem template_loadAbs16 (n : Nat) (addr : Word16) :
    template .loadAbs16 (.register n) (.absoluteMem addr) =
      lit "r" ++ decimal n ++ lit " <- [0x" ++ hexPadded 4 addr.toNat ++ lit "]" := by
  simp only [template, renderOperand, registerText_eq, show " <- [0x" = " <- " ++ "[0x" from rfl,
    lit_append, List.append_assoc]

/-- Settles O23: each meaning is the transaction of one record of a wide value, an immediate for
`Call` and an address for `LoadAbs16`. -/
theorem callAndLoadAbs16MeetTheirRules : Obligations.CallAndLoadAbs16MeetTheirRules := by
  unfold Obligations.CallAndLoadAbs16MeetTheirRules
  intro n l h
  have hcall : template .call (.imm16 (h ++ l)) .empty =
      lit "call 0x" ++ hexPadded 4 (h ++ l).toNat := lit_append_wideOperand "call " (h ++ l)
  rw [← hcall, ← template_loadAbs16]
  exact ⟨meetsRule_of_transact_wide (i := .call (value16 l h)) rfl rfl rfl fun _ => rfl,
    meetsRule_of_transact_wide (i := .loadAbs16 n (value16 l h)) rfl rfl rfl fun _ => rfl⟩

/-! ### The target a caller computes -/

@[simp] theorem operandTarget_relativeBranch (next : Word16) (rel : Int) :
    operandTarget next (some (.relativeBranch rel)) = some (relativeTarget next rel) := rfl

@[simp] theorem operandTarget_imm16 (next imm : Word16) :
    operandTarget next (some (.imm16 imm)) = some imm := rfl

/-- An operand names a target exactly when it is a displacement or a wide immediate (R110, R111). -/
theorem operandTarget_eq_none_iff (next : Word16) (o : Option Operand) :
    operandTarget next o = none ↔
      o.map variant ≠ some .relativeBranch ∧ o.map variant ≠ some .imm16 := by
  rcases o with _ | o
  · simp [operandTarget]
  · cases o <;> simp [operandTarget, variant]

/-- A valid Instruction's first slot, where it is used, is its operand 0 (R16, R179). -/
theorem operandOf_zero_of_slot0 {ins : Instruction} (h : isValid ins = true)
    (hslot : variant ins.slot0 ≠ .empty) : operandOf ins 0 = some ins.slot0 := by
  obtain ⟨hcount, hslot0, -⟩ := (isValid_iff ins).1 h
  have hpos : 0 < ins.operandCount := by
    rw [hcount]
    refine List.length_pos_iff.2 fun hnil => hslot ?_
    rw [hslot0, hnil, List.getD_nil]
  simp only [operandOf, hpos, if_true]

/-- A branch that is the second operand stands behind a selector (R14). -/
theorem signature_zero_of_one_relativeBranch {opc : Opcode}
    (h : (signature opc)[1]? = some .relativeBranch) : (signature opc)[0]? = some .imm8 := by
  revert h
  cases opc <;> decide

/-- A valid Instruction with a displacement in either slot has the target of that displacement. -/
theorem transferTarget_of_relativeBranch (a : Word16) {ins : Instruction} {rel : Int}
    (hvalid : isValid ins = true)
    (h : operandOf ins 0 = some (.relativeBranch rel) ∨
      operandOf ins 1 = some (.relativeBranch rel)) :
    transferTarget a ins = some (relativeTarget (nextAddress a ins) rel) := by
  rcases h with h | h
  · rw [transferTarget, h, operandTarget_relativeBranch, Option.some_or]
  · have hone : (signature ins.opcode)[1]? = some .relativeBranch := by
      rw [← operandOf_map_variant hvalid, h]
      rfl
    have hzero : operandTarget (nextAddress a ins) (operandOf ins 0) = none := by
      rw [operandTarget_eq_none_iff, operandOf_map_variant hvalid,
        signature_zero_of_one_relativeBranch hone]
      decide
    rw [transferTarget, hzero, h, operandTarget_relativeBranch, Option.none_or]

/-- R110 in integers: each sum is taken modulo 2^16, so the whole sum is (D11). -/
theorem relativeTarget_nextAddress_toNat (a : Word16) (ins : Instruction) (rel : Int) :
    ((relativeTarget (nextAddress a ins) rel).toNat : Int) =
      (a.toNat + ins.byteLength + rel) % 2 ^ 16 := by
  simp only [relativeTarget, nextAddress, BitVec.toNat_add, BitVec.toNat_ofNat, BitVec.toNat_ofInt]
  omega

/-- Settles O51: the target is the displacement's by the signature, and a branch to itself is the
arithmetic at -2. -/
theorem relativeTargetArithmetic : Obligations.RelativeTargetArithmetic := by
  unfold Obligations.RelativeTargetArithmetic
  intro a ins rel hvalid hoperand
  have htarget := relativeTarget_nextAddress_toNat a ins rel
  refine ⟨_, transferTarget_of_relativeBranch a hvalid hoperand, htarget, fun hlen hrel => ?_⟩
  subst hrel
  rw [hlen] at htarget
  exact BitVec.eq_of_toNat_eq (by omega)

/-- The opcodes that are no branch have no displacement and no wide immediate (R14). -/
theorem signature_of_no_branch {opc : Opcode}
    (h : opc ∉ [Opcode.jz, .jnz, .jc, .jnc, .jccLowGroup, .jccHighGroup, .jmp, .call]) :
    .relativeBranch ∉ signature opc ∧ .imm16 ∉ signature opc := by
  revert h
  cases opc <;> decide

/-- Settles O52: a wide immediate in the first slot is operand 0, which names the target; a
signature with neither variant leaves none at either index. -/
theorem absoluteTargetIsTheImmediate : Obligations.AbsoluteTargetIsTheImmediate := by
  unfold Obligations.AbsoluteTargetIsTheImmediate
  refine ⟨fun a ins imm hvalid hslot => ?_, fun a ins hvalid hopcode => ?_⟩
  · have hoperand := operandOf_zero_of_slot0 hvalid (by simp [hslot, variant])
    rw [transferTarget, hoperand, hslot, operandTarget_imm16, Option.some_or]
  · obtain ⟨hbranch, himm⟩ := signature_of_no_branch hopcode
    have hnone (i : Nat) : operandTarget (nextAddress a ins) (operandOf ins i) = none := by
      rw [operandTarget_eq_none_iff, operandOf_map_variant hvalid]
      exact ⟨fun h => hbranch (List.mem_of_getElem? h), fun h => himm (List.mem_of_getElem? h)⟩
    rw [transferTarget, hnone, hnone, Option.none_or]

end Sys2Proof.Machine
end

section
/-! The load and store instructions (43_load_store.md). A memory operand is text in brackets, so their
texts come from joining the literal pieces around a pair or an address. Behind them stands the address
an operand names for a caller: the value of a pair is a 16-bit value whose byte order is open. -/

namespace Sys2Proof.Machine

/-! ### The texts of the loads and stores -/

/-- Literal text behind a literal end of any text joins it. -/
theorem append_lit_append_lit (t : Text) (s u : String) :
    t ++ lit s ++ lit u = t ++ lit (s ++ u) := by
  rw [lit_append, List.append_assoc]

/-- The text of `StoreAbs16`: the memory in slot 1 stands before the register in slot 0 (R157). -/
theorem template_storeAbs16 (n : Nat) (addr : Word16) :
    template .storeAbs16 (.register n) (.absoluteMem addr) =
      lit "[0x" ++ hexPadded 4 addr.toNat ++ lit "] <- r" ++ decimal n := by
  simp only [template, renderOperand, registerText_eq, show "] <- r" = "] <- " ++ "r" from rfl,
    show "] <- " = "]" ++ " <- " from rfl, lit_append, List.append_assoc]

/-- The text of `LoadImm8`, its slots in order (R155). -/
theorem template_loadImm8 (n : Nat) (imm : Byte) :
    template .loadImm8 (.register n) (.imm8 imm) =
      lit "r" ++ decimal n ++ lit " <- 0x" ++ hexPadded 2 imm.toNat := by
  simp only [template, renderOperand, registerText_eq, show " <- 0x" = " <- " ++ "0x" from rfl,
    lit_append, List.append_assoc]

/-- The store's arrow stands behind the bracket that closes its operand (R159). -/
theorem template_storeIndirect (n : Nat) :
    template .storeIndirect (.indirectMem n) .empty = lit "[" ++ pairText n ++ lit "] <- r0" :=
  append_lit_append_lit _ "]" " <- r0"

/-- As without an offset (R161). -/
theorem template_storeIndirectOffset (n : Nat) (offs : Byte) :
    template .storeIndirectOffset (.indirectMemOffset n offs) .empty =
      lit "[" ++ pairText n ++ lit " + 0x" ++ hex offs.toNat ++ lit "] <- r0" :=
  append_lit_append_lit _ "]" " <- r0"

/-- The load's arrow stands before its operand (R158). -/
theorem template_loadIndirect (n : Nat) :
    template .loadIndirect (.indirectMem n) .empty =
      lit "r0 <- " ++ (lit "[" ++ pairText n) ++ lit "]" := by
  simp only [template, renderOperand, List.append_assoc]

/-- As without an offset (R160). -/
theorem template_loadIndirectOffset (n : Nat) (offs : Byte) :
    template .loadIndirectOffset (.indirectMemOffset n offs) .empty =
      lit "r0 <- " ++ (lit "[" ++ pairText n) ++ lit " + 0x" ++ hex offs.toNat ++ lit "]" := by
  simp only [template, renderOperand, List.append_assoc]

/-! ### The rules of the loads and stores -/

/-- Settles O22: the store is a transaction of a wide value, the load one of its byte as it stands. -/
theorem storeAbs16AndLoadImm8MeetTheirRules : Obligations.StoreAbs16AndLoadImm8MeetTheirRules := by
  unfold Obligations.StoreAbs16AndLoadImm8MeetTheirRules
  intro n l h
  rw [← template_storeAbs16, ← template_loadImm8]
  exact ⟨meetsRule_of_transact_wide (i := .storeAbs16 n (value16 l h)) rfl rfl rfl fun _ => rfl,
    meetsRule_of_transact (i := .loadImm8 n l) rfl rfl fun _ => rfl⟩

/-- Settles O24: each meaning is the transaction of one record, the pair in its text the operand's,
the offset the byte as it stands. -/
theorem indirectLoadsAndStoresMeetTheirRules : Obligations.IndirectLoadsAndStoresMeetTheirRules := by
  unfold Obligations.IndirectLoadsAndStoresMeetTheirRules
  intro n o
  have hpair : lit "[" ++ pairText n.toNat =
      lit "[r" ++ decimal n.toNat ++ lit ":r" ++ decimal (n.toNat + 1) :=
    lit_append_pairText "[" n.toNat
  dsimp only
  rw [← hpair, ← template_storeIndirect, ← template_storeIndirectOffset, ← template_loadIndirect,
    ← template_loadIndirectOffset]
  exact ⟨meetsRule_of_transact (i := .storeIndirect n) rfl rfl fun _ => rfl,
    meetsRule_of_transact (i := .storeIndirectOffset n o) rfl rfl fun _ => rfl,
    meetsRule_of_transact (i := .loadIndirect n) rfl rfl fun _ => rfl,
    meetsRule_of_transact (i := .loadIndirectOffset n o) rfl rfl fun _ => rfl⟩

/-! ### The address a caller computes -/

/-- Whichever byte PAIR_HIGH_FIRST makes the high one, the pair is a 16-bit value of its two bytes. -/
theorem pairValue_toNat (rN rN1 : Byte) :
    (pairValue rN rN1).toNat = 256 * rN.toNat + rN1.toNat ∨
      (pairValue rN rN1).toNat = rN.toNat + 256 * rN1.toNat := by
  unfold pairValue
  split
  · exact .inl ((value16_toNat rN1 rN).trans (Nat.add_comm _ _))
  · exact .inr (value16_toNat rN rN1)

/-- Where the exact sum has 16 bits it is the address (R127). -/
theorem offsetAddress_toNat {pair : Word16} {offs : Byte} (h : pair.toNat + offs.toNat < 2 ^ 16) :
    (offsetAddress pair offs).toNat = pair.toNat + offs.toNat := by
  rw [offsetAddress, if_pos h, BitVec.toNat_ofNat, Nat.mod_eq_of_lt h]

theorem effectiveAddress_absoluteMem (reg : Nat → Byte) (addr : Word16) :
    effectiveAddress reg (.absoluteMem addr) = some addr := rfl

theorem effectiveAddress_indirectMem (reg : Nat → Byte) (n : Nat) :
    effectiveAddress reg (.indirectMem n) = some (pairValue (reg n) (reg (n + 1))) := rfl

/-- An offset form adds its offset to the address of the form without one. -/
theorem effectiveAddress_indirectMemOffset (reg : Nat → Byte) (n : Nat) (offs : Byte) :
    effectiveAddress reg (.indirectMemOffset n offs) =
      (effectiveAddress reg (.indirectMem n)).map (offsetAddress · offs) := rfl

/-- The operands that name no memory are those of the other six variants. -/
theorem effectiveAddress_eq_none_iff (reg : Nat → Byte) (x : Operand) :
    effectiveAddress reg x = none ↔
      variant x ∉ [.absoluteMem, .indirectMem, .indirectMemOffset] := by
  cases x <;> simp [effectiveAddress, variant]

/-- Settles O53: a pair's value in either byte order, and the offset form by the form without one. -/
theorem operandAddressesForACaller : Obligations.OperandAddressesForACaller := by
  unfold Obligations.OperandAddressesForACaller
  intro reg
  refine ⟨effectiveAddress_absoluteMem reg,
    fun n => ⟨_, effectiveAddress_indirectMem reg n, pairValue_toNat _ _⟩,
    fun n offs v haddr hsum => ?_, fun x => (effectiveAddress_eq_none_iff reg x).2⟩
  refine ⟨offsetAddress v offs, ?_, offsetAddress_toNat hsum⟩
  rw [effectiveAddress_indirectMemOffset, haddr, Option.map_some]

end Sys2Proof.Machine
end

section
/-! The number formats and the operand texts (45_renderer.md R130 to R140). A number's text grows by one
digit at its end, so a fact about all of them is one about a digit and one about a digit more. -/

namespace Sys2Proof.Machine

/-! ### Digits -/

/-- The digits of both number formats, each at the place that is its value. -/
def digits : Text := lit "0123456789abcdef"

/-- The value of a number's text, digit by digit from the left (R130). -/
def readBack (base : Nat) (t : Text) : Nat := t.foldl (fun a c => base * a + digits.idxOf c) 0

theorem idxOf_digitChar : ∀ d < 16, digits.idxOf (Nat.digitChar d) = d := by decide

theorem digitChar_mem_take_digits : ∀ b ≤ 16, ∀ d < b, Nat.digitChar d ∈ digits.take b := by decide

theorem readBack_concat (b : Nat) (t : Text) (c : Char) :
    readBack b (t ++ [c]) = b * readBack b t + digits.idxOf c := by
  simp [readBack]

theorem readBack_zeros_append (b k : Nat) (t : Text) :
    readBack b (List.replicate k '0' ++ t) = readBack b t := by
  induction k with
  | zero => rfl
  | succ k ih => exact ih

/-! ### The text of a number -/

/-- The text of a number is that of one digit, or the text of a smaller number and one digit more. -/
theorem toDigits_induction {b : Nat} (hb : 1 < b) {P : Nat → Text → Prop}
    (digit : ∀ d < b, P d [Nat.digitChar d])
    (more : ∀ n d, n ≠ 0 → d < b → P n (Nat.toDigits b n) →
      P (b * n + d) (Nat.toDigits b n ++ [Nat.digitChar d])) (v : Nat) :
    P v (Nat.toDigits b v) := by
  induction v using Nat.strong_induction_on with
  | _ v ih =>
    rw [Nat.toDigits_eq_if hb]
    split_ifs with hv
    · exact digit v hv
    · have hpos : 0 < v / b := Nat.div_pos (Nat.le_of_not_lt hv) (by omega)
      have hlt : v / b < v := Nat.div_lt_self (by omega) hb
      have hmod : v % b < b := Nat.mod_lt v (by omega)
      simpa only [Nat.div_add_mod] using more (v / b) (v % b) hpos.ne' hmod (ih _ hlt)

theorem readBack_toDigits {b : Nat} (hb : 1 < b) (hmax : b ≤ 16) (v : Nat) :
    readBack b (Nat.toDigits b v) = v := by
  refine toDigits_induction hb (P := fun v t => readBack b t = v) (fun d hd => ?_)
    (fun n d _ hd ih => ?_) v
  · simp [readBack, idxOf_digitChar d (by omega)]
  · rw [readBack_concat, ih, idxOf_digitChar d (by omega)]

theorem mem_take_digits_of_mem_toDigits {b : Nat} (hb : 1 < b) (hmax : b ≤ 16) (v : Nat) :
    ∀ c ∈ Nat.toDigits b v, c ∈ digits.take b := by
  refine toDigits_induction hb (P := fun _ t => ∀ c ∈ t, c ∈ digits.take b) (fun d hd => ?_)
    (fun n d _ hd ih => ?_) v
  · simpa using digitChar_mem_take_digits b hmax d hd
  · simpa [or_imp, forall_and] using ⟨ih, digitChar_mem_take_digits b hmax d hd⟩

/-- The first digit stays the first when another is put behind it. -/
theorem head?_toDigits_ne_zero {b : Nat} (hb : 1 < b) (v : Nat) :
    v ≠ 0 → (Nat.toDigits b v).head? ≠ some '0' := by
  refine toDigits_induction hb (P := fun v t => v ≠ 0 → t.head? ≠ some '0') (fun d _ => ?_)
    (fun n d hn _ ih _ => ?_) v
  · simp
  · rw [List.head?_append_of_ne_nil _ Nat.toDigits_ne_nil]
    exact ih hn

theorem mem_digits_of_mem_decimal {v : Nat} {c : Char} (h : c ∈ decimal v) : c ∈ digits :=
  List.mem_of_mem_take (mem_take_digits_of_mem_toDigits (b := 10) (by decide) (by decide) v c h)

theorem mem_digits_of_mem_hex {v : Nat} {c : Char} (h : c ∈ hex v) : c ∈ digits :=
  mem_take_digits_of_mem_toDigits (b := 16) (by decide) (by decide) v c h

theorem mem_digits_of_mem_hexPadded {n v : Nat} {c : Char} (h : c ∈ hexPadded n v) :
    c ∈ digits := by
  rw [hexPadded, List.leftpad, List.mem_append] at h
  rcases h with h | h
  · exact List.eq_of_mem_replicate h ▸ by decide
  · exact mem_digits_of_mem_hex h

theorem decimal_length_le {k v : Nat} (hk : 0 < k) (hv : v < 10 ^ k) : (decimal v).length ≤ k :=
  (Nat.length_toDigits_le_iff (by decide) hk).2 hv

theorem hex_length_le {k v : Nat} (hk : 0 < k) (hv : v < 16 ^ k) : (hex v).length ≤ k :=
  (Nat.length_toDigits_le_iff (by decide) hk).2 hv

theorem hexPadded_length {n v : Nat} (hn : 0 < n) (hv : v < 16 ^ n) :
    (hexPadded n v).length = n := by
  rw [hexPadded, List.length_leftpad, Nat.max_eq_left (hex_length_le hn hv)]

theorem readBack_hexPadded (n v : Nat) : readBack 16 (hexPadded n v) = v :=
  (readBack_zeros_append ..).trans (readBack_toDigits (by decide) (by decide) v)

/-- Settles O42: both formats are the digits of the library's own conversion, and padding puts zeros
before them. -/
theorem numberFormatsReadBack : Obligations.NumberFormatsReadBack := by
  unfold Obligations.NumberFormatsReadBack
  intro _ _ v
  exact ⟨readBack_toDigits (by decide) (by decide) v, readBack_toDigits (by decide) (by decide) v,
    mem_take_digits_of_mem_toDigits (by decide) (by decide) v, fun _ => mem_digits_of_mem_hex,
    fun hv => ⟨head?_toDigits_ne_zero (by decide) v hv, head?_toDigits_ne_zero (by decide) v hv⟩,
    ⟨rfl, rfl⟩, fun n hn hv => ⟨hexPadded_length hn hv, readBack_hexPadded n v⟩⟩

/-! ### The texts of the operands -/

/-- Settles O43: each of the four is one literal and the digits of a number. -/
theorem plainOperandTexts : Obligations.PlainOperandTexts := by
  unfold Obligations.PlainOperandTexts
  exact ⟨registerText_eq, fun _ => rfl, fun _ => rfl, fun _ => rfl⟩

theorem displacementText_natCast (k : Nat) : displacementText k = lit "$+0x" ++ hex k := by
  simp [displacementText]

theorem displacementText_neg_natCast {k : Nat} (hk : 0 < k) :
    displacementText (-k) = lit "$-0x" ++ hex k := by
  have hneg : ¬ (0 : Int) ≤ -k := by omega
  rw [displacementText, if_neg hneg, Int.natAbs_neg, Int.natAbs_natCast]

/-- Settles O44: the memory texts are that of a pair in brackets, and a displacement's sign is chosen
by its value. -/
theorem pairAndDisplacementTexts : Obligations.PairAndDisplacementTexts := by
  unfold Obligations.PairAndDisplacementTexts
  have hpair (n : Nat) : lit "[" ++ pairText n =
      lit "[r" ++ decimal n ++ lit ":r" ++ decimal (n + 1) := lit_append_pairText "[" n
  refine ⟨pairText_eq, fun n => ?_, fun n o => ?_, displacementText_natCast,
    fun k => displacementText_neg_natCast, rfl⟩
  · rw [renderOperand, hpair]
  · rw [renderOperand, hpair]

end Sys2Proof.Machine
end

section
/-! The templates and the opcode names (45_renderer.md R141 to R181). A template puts literal text around
operand texts, so what R181 says of a text is proved for the pieces and kept where pieces meet: there the
literal has a character that is no space, or the operand has one. The length needs the register numbers
the decoder makes, 0 to 7: a valid Instruction may hold any. -/

namespace Sys2Proof.Machine

/-! ### Rendering as a call -/

theorem callRender_eq (ins : Instruction) :
    callRender ins =
      if isValid ins then .next (template ins.opcode ins.slot0 ins.slot1)
      else .refused .outOfContract := by
  unfold callRender render
  split_ifs <;> rfl

/-- Every template has literal text, whatever its operands render to. -/
theorem template_ne_nil (opc : Opcode) (a b : Operand) : template opc a b ≠ [] := by
  cases opc with
  | scf | ccf | ret | iret => exact List.cons_ne_nil _ _
  | movAccToReg | storeIndirect | storeIndirectOffset =>
    exact List.append_ne_nil_of_right_ne_nil _ (by decide)
  | loadImm8 | loadAbs16 | storeAbs16 | jccLowGroup | jccHighGroup =>
    exact List.append_ne_nil_of_left_ne_nil
      (List.append_ne_nil_of_right_ne_nil _ (by decide)) _
  | _ => exact List.append_ne_nil_of_left_ne_nil (by decide) _

/-- Settles O45: the call answers the template of a valid Instruction and refuses any other. -/
theorem renderExactlyTheValid : Obligations.RenderExactlyTheValid := by
  unfold Obligations.RenderExactlyTheValid
  refine fun ins => ⟨fun h => ⟨template ins.opcode ins.slot0 ins.slot1, ?_, template_ne_nil _ _ _⟩,
    fun h => ?_⟩
  · rw [callRender_eq, if_pos h]
  · rw [callRender_eq, h]
    rfl

/-! ### The text of an opcode -/

/-- A table that lists every opcode, no two with one text, makes the texts tell the opcodes apart. -/
theorem renderOpcode_injective_of_table {table : List (Opcode × String)}
    (htotal : ∀ o, ∃ p ∈ table, p.1 = o)
    (hdistinct : (table.map fun p => renderOpcode p.1).Nodup) : Function.Injective renderOpcode := by
  intro o p h
  obtain ⟨x, hx, rfl⟩ := htotal o
  obtain ⟨y, hy, rfl⟩ := htotal p
  exact congrArg Prod.fst (List.inj_on_of_nodup_map hdistinct hx hy h)

/-- The opcodes whose template is written with an operator or an arrow and no mnemonic word (R180). -/
def opcodesWithoutWord : List Opcode :=
  [.or, .and, .xor, .add, .movRegToAcc, .movAccToReg, .loadImm8, .loadAbs16, .storeAbs16,
    .loadIndirect, .storeIndirect, .loadIndirectOffset, .storeIndirectOffset]

/-- Every other template begins with the text of its opcode. -/
theorem renderOpcode_prefix_template {opc : Opcode} (h : opc ∉ opcodesWithoutWord) (a b : Operand) :
    renderOpcode opc <+: template opc a b := by
  cases opc with
  | or | and | xor | add | movRegToAcc | movAccToReg | loadImm8 | loadAbs16 | storeAbs16
  | loadIndirect | storeIndirect | loadIndirectOffset | storeIndirectOffset =>
    exact absurd (by decide) h
  | scf | ccf | ret | iret => exact List.prefix_rfl
  | jccLowGroup | jccHighGroup =>
    refine List.prefix_append_of_prefix (List.prefix_append_of_prefix
      (List.prefix_append_of_prefix ?_))
    decide
  | _ =>
    refine List.prefix_append_of_prefix ?_
    decide

/-- Settles O46: the statement's table lists every opcode once, and its words are the opcodes whose
template begins with one. -/
theorem opcodeTexts : Obligations.OpcodeTexts := by
  unfold Obligations.OpcodeTexts
  intro words names
  have htotal : ∀ o : Opcode, ∃ p ∈ words ++ names, p.1 = o := fun o =>
    List.mem_map.1 (show o ∈ (words ++ names).map Prod.fst by cases o <;> decide)
  have hword : ∀ o ∈ words.map Prod.fst, o ∉ opcodesWithoutWord := by decide
  refine ⟨htotal, by decide, renderOpcode_injective_of_table htotal (by decide),
    fun ins text htext hmem => ?_⟩
  rw [callRender_eq] at htext
  split_ifs at htext
  obtain rfl := Host.Outcome.next.inj htext
  exact renderOpcode_prefix_template (hword _ hmem) _ _

/-! ### Lines of text (R181) -/

/-- The characters of R181. -/
def lineChars : Text := lit "abcdefghijklmnopqrstuvwxyz0123456789 []:+-$.,<^|&="

/-- What R181 says of a text, for a length of at most `n`. A space put before the text and one behind it
make a leading space, a trailing space and no text at all two spaces in a row, as those inside are. -/
abbrev IsLine (n : Nat) (t : Text) : Prop :=
  t.length ≤ n ∧ t ⊆ lineChars ∧
    (' ' :: t ++ [' ']).IsChain (fun c d => ¬ (c = ' ' ∧ d = ' '))

theorem not_two_spaces_infix_of_isLine {n : Nat} {t : Text} (h : IsLine n t) :
    ¬ [' ', ' '] <:+: ' ' :: t ++ [' '] := by
  obtain ⟨-, -, hspaces⟩ := h
  rintro ⟨before, after, heq⟩
  rw [List.append_assoc] at heq
  exact List.isChain_iff_forall_rel_of_append_cons_cons.1 hspaces heq.symm ⟨rfl, rfl⟩

/-- The clauses of R181 on spaces, each by the place where two spaces would stand. -/
theorem spacing_of_isLine {n : Nat} {t : Text} (h : IsLine n t) :
    t ≠ [] ∧ t.head? ≠ some ' ' ∧ t.getLast? ≠ some ' ' ∧ ¬ [' ', ' '] <:+: t := by
  have hnot := not_two_spaces_infix_of_isLine h
  refine ⟨?_, fun hhead => hnot ?_, fun hlast => hnot ?_, fun hinfix => hnot ?_⟩
  · rintro rfl
    exact hnot List.infix_rfl
  · obtain ⟨u, rfl⟩ := List.head?_eq_some_iff.1 hhead
    exact ⟨[], u ++ [' '], rfl⟩
  · obtain ⟨u, rfl⟩ := List.getLast?_eq_some_iff.1 hlast
    exact ⟨' ' :: u, [], by simp⟩
  · exact (hinfix.trans (List.suffix_cons ' ' t).isInfix).trans (List.prefix_append _ _).isInfix

theorem IsLine.mono {m n : Nat} {t : Text} (h : IsLine m t) (hmn : m ≤ n) : IsLine n t :=
  ⟨h.1.trans hmn, h.2⟩

/-- Literal text before a line, when it would make a line with a letter behind it. -/
theorem IsLine.append_left {m n : Nat} {s u : Text} (hu : IsLine n u)
    (hs : IsLine (m + 1) (s ++ ['r'])) : IsLine (m + n) (s ++ u) := by
  obtain ⟨hlen, hchars, hspaces⟩ := hu
  obtain ⟨hlen', hchars', hspaces'⟩ := hs
  have hbefore : (' ' :: s).IsChain (fun c d => ¬ (c = ' ' ∧ d = ' ')) := by
    rw [← List.cons_append, List.append_assoc] at hspaces'
    exact hspaces'.left_of_append
  refine ⟨?_, ?_, ?_⟩
  · simp only [List.length_append, List.length_singleton] at hlen' ⊢
    omega
  · exact List.append_subset.2 ⟨(List.append_subset.1 hchars').1, hchars⟩
  · rw [← List.cons_append, List.append_assoc]
    exact hbefore.append hspaces.tail fun c _ d hd hcd => hspaces.rel_head? hd ⟨rfl, hcd.2⟩

/-- Literal text behind a line, when it would make a line with a letter before it. -/
theorem IsLine.append_right {m n : Nat} {s u : Text} (hu : IsLine n u)
    (hs : IsLine (m + 1) ('r' :: s)) : IsLine (n + m) (u ++ s) := by
  obtain ⟨hlen, hchars, hspaces⟩ := hu
  obtain ⟨hlen', hchars', hspaces'⟩ := hs
  refine ⟨?_, ?_, ?_⟩
  · simp only [List.length_append, List.length_cons] at hlen' ⊢
    omega
  · exact List.append_subset.2 ⟨hchars, (List.cons_subset.1 hchars').2⟩
  · rw [← List.cons_append, List.append_assoc]
    refine hspaces.left_of_append.append hspaces'.tail.tail fun c hc d _ hcd => ?_
    exact (List.isChain_append.1 hspaces).2.2 c hc ' ' rfl ⟨hcd.1, rfl⟩

/-- Literal text between two lines. -/
theorem IsLine.append_between {k m n : Nat} {s t u : Text} (ht : IsLine k t) (hu : IsLine n u)
    (hs : IsLine (m + 2) ('r' :: s ++ ['r'])) : IsLine (k + (m + n)) (t ++ s ++ u) := by
  have hsu : IsLine (m + 1 + n) ('r' :: s ++ u) := hu.append_left hs
  rw [List.append_assoc]
  exact ht.append_right (hsu.mono (by omega))

/-- Digits are a line, as there is no space among them. -/
theorem isLine_of_digits {n : Nat} {t : Text} (hne : t ≠ []) (hlen : t.length ≤ n)
    (hdigits : ∀ c ∈ t, c ∈ digits) : IsLine n t := by
  have hspace : ∀ c ∈ t, c ≠ ' ' := fun c hc h => absurd (h ▸ hdigits c hc) (by decide)
  have hsub : digits ⊆ lineChars := by decide
  refine ⟨hlen, fun c hc => hsub (hdigits c hc), ?_⟩
  rw [List.cons_append, List.isChain_cons, List.isChain_append]
  refine ⟨fun c hc h => ?_, ?_, List.isChain_singleton _, fun c hc d _ h => ?_⟩
  · rw [List.head?_append_of_ne_nil _ hne] at hc
    exact hspace c (List.mem_of_mem_head? hc) h.2
  · exact List.Pairwise.isChain
      (List.pairwise_of_forall_mem_list fun c hc d _ h => hspace c hc h.1)
  · exact hspace c (List.mem_of_mem_getLast? hc) h.1

theorem isLine_decimal {k v : Nat} (hk : 0 < k) (hv : v < 10 ^ k) : IsLine k (decimal v) :=
  isLine_of_digits Nat.toDigits_ne_nil (decimal_length_le hk hv) fun _ => mem_digits_of_mem_decimal

theorem isLine_hex {k v : Nat} (hk : 0 < k) (hv : v < 16 ^ k) : IsLine k (hex v) :=
  isLine_of_digits Nat.toDigits_ne_nil (hex_length_le hk hv) fun _ => mem_digits_of_mem_hex

theorem isLine_hexPadded {n v : Nat} (hn : 0 < n) (hv : v < 16 ^ n) : IsLine n (hexPadded n v) := by
  have hlen := hexPadded_length hn hv
  exact isLine_of_digits (List.ne_nil_of_length_pos (by omega)) hlen.le
    fun _ => mem_digits_of_mem_hexPadded

/-! ### The operands of a decoded Instruction -/

/-- The register number an operand holds; 0 where its variant holds none. -/
def registerNumber : Operand → Nat
  | .register n | .registerPair n | .indirectMem n | .indirectMemOffset n _ => n
  | _ => 0

/-- The transaction an instruction makes has the register number of three bits of its opcode byte. -/
theorem exec_registerNumber_le (i : Instr) :
    (∃ len ins, registerNumber ins.slot0 ≤ 7 ∧ registerNumber ins.slot1 ≤ 7 ∧
      ∀ s, exec i s = .next (s.transact len ins)) ∨
    ∀ s, exec i s = .next s.transactInvalid := by
  cases i with
  | invalid op => exact .inr fun s => rfl
  | family00 n | family08 n | family10 n | family18 n | family20 n | xor n | family30 n
  | family38 n | family40 n | sbc n | family50 n | movAccToReg n | cmp n | push n | pop n | incW n
  | storeAbs16 n | storeIndirect n | storeIndirectOffset n | loadImm8 n | loadAbs16 n
  | loadIndirect n | loadIndirectOffset n =>
    refine .inl ⟨_, _, ?_, ?_, fun s => rfl⟩
    · exact Nat.le_of_lt_succ n.isLt
    · exact Nat.zero_le 7
  | _ =>
    refine .inl ⟨_, _, ?_, ?_, fun s => rfl⟩
    · exact Nat.zero_le 7
    · exact Nat.zero_le 7

/-- Of a decoded Instruction a register number is at most 7 (R11). -/
theorem registerNumber_le_of_step {s t : State} {ins : Instruction} (h : step s = .next t)
    (hresult : t.result = some (.instruction ins)) :
    registerNumber ins.slot0 ≤ 7 ∧ registerNumber ins.slot1 ≤ 7 := by
  obtain ⟨i, hfetch⟩ := exists_fetch_of_result h hresult
  simp only [step, hfetch] at h
  rcases exec_registerNumber_le i with ⟨len, out, h0, h1, hexec⟩ | hexec
  all_goals
    obtain rfl := Host.Outcome.next.inj ((hexec s).symm.trans h)
  · rcases transact_cases s len out with ⟨-, hend⟩ | ⟨-, hend⟩
    · rw [hend, deliver_result] at hresult
      obtain rfl := DecodeResult.instruction.inj (Option.some.inj hresult)
      exact ⟨h0, h1⟩
    · rw [hend, afterError_result] at hresult
      cases hresult
  · rw [transactInvalid_eq] at hresult
    split_ifs at hresult <;> cases hresult

/-! ### The texts of its operands -/

theorem isLine_registerText {n : Nat} (h : n ≤ 8) : IsLine 2 (registerText n) :=
  (isLine_decimal (k := 1) (by decide) (by omega)).append_left (m := 1) (s := lit "r") (by decide)

theorem isLine_pairText {n : Nat} (h : n ≤ 7) : IsLine 5 (pairText n) :=
  (isLine_registerText (by omega)).append_between (m := 1) (isLine_registerText (by omega))
    (by decide)

theorem isLine_displacementText {rel : Int} (hmin : -128 ≤ rel) (hmax : rel ≤ 127) :
    IsLine 6 (displacementText rel) := by
  have hhex : IsLine 2 (hex rel.natAbs) := isLine_hex (by decide) (by omega)
  unfold displacementText
  split_ifs
  · exact hhex.append_left (m := 4) (by decide)
  · exact hhex.append_left (m := 4) (by decide)

/-- The length of the longest text an operand of a variant has in a decoded Instruction. -/
def operandWidth : Variant → Nat
  | .empty => 0
  | .register => 2
  | .registerPair => 5
  | .absoluteMem => 8
  | .indirectMem => 7
  | .indirectMemOffset => 14
  | .relativeBranch => 6
  | .imm8 => 4
  | .imm16 => 6

/-- Only a register and a displacement have to be as the decoder makes them: the other fields are as
wide as their types. -/
theorem isLine_renderOperand {x : Operand} (hempty : variant x ≠ .empty)
    (hregister : registerNumber x ≤ 7) (hrange : operandInRange x = true) :
    IsLine (operandWidth (variant x)) (renderOperand x) := by
  cases x with
  | empty => exact absurd rfl hempty
  | register n => exact isLine_registerText (Nat.le_succ_of_le hregister)
  | registerPair n => exact isLine_pairText hregister
  | absoluteMem addr =>
    have hhex : IsLine 4 (hexPadded 4 addr.toNat) := isLine_hexPadded (by decide) addr.isLt
    exact (hhex.append_left (m := 3) (s := lit "[0x") (by decide)).append_right (m := 1) (by decide)
  | indirectMem n =>
    exact ((isLine_pairText hregister).append_left (m := 1) (s := lit "[") (by decide)).append_right
      (m := 1) (by decide)
  | indirectMemOffset n offs =>
    have hpair : IsLine 6 (lit "[" ++ pairText n) :=
      (isLine_pairText hregister).append_left (m := 1) (by decide)
    have hhex : IsLine 2 (hex offs.toNat) := isLine_hex (by decide) offs.isLt
    exact (hpair.append_between (m := 5) hhex (by decide)).append_right (m := 1) (by decide)
  | relativeBranch rel =>
    simp only [operandInRange, Bool.and_eq_true, decide_eq_true_eq] at hrange
    exact isLine_displacementText hrange.1 hrange.2
  | imm8 imm =>
    have hhex : IsLine 2 (hexPadded 2 imm.toNat) := isLine_hexPadded (by decide) imm.isLt
    exact hhex.append_left (m := 2) (by decide)
  | imm16 imm =>
    have hhex : IsLine 4 (hexPadded 4 imm.toNat) := isLine_hexPadded (by decide) imm.isLt
    exact hhex.append_left (m := 2) (by decide)

theorem isLine_selectorText {x : Operand} (h : variant x = .imm8) : IsLine 2 (selectorText x) := by
  cases x with
  | imm8 imm => exact isLine_hex (by decide) imm.isLt
  | _ => cases h

/-! ### The texts of decoded Instructions -/

/-- The template of every opcode over operands of its signature, as the decoder makes them: what the
literal pieces leave of the 20 characters is as much as their operands take. -/
theorem isLine_template {opc : Opcode} {a b : Operand}
    (ha : variant a = (signature opc).getD 0 .empty)
    (hb : variant b = (signature opc).getD 1 .empty)
    (hna : registerNumber a ≤ 7) (hnb : registerNumber b ≤ 7)
    (hra : operandInRange a = true) (hrb : operandInRange b = true) :
    IsLine 20 (template opc a b) := by
  have hlineA (h : (signature opc).getD 0 .empty ≠ .empty) :
      IsLine (operandWidth ((signature opc).getD 0 .empty)) (renderOperand a) :=
    ha ▸ isLine_renderOperand (ha ▸ h) hna hra
  have hlineB (h : (signature opc).getD 1 .empty ≠ .empty) :
      IsLine (operandWidth ((signature opc).getD 1 .empty)) (renderOperand b) :=
    hb ▸ isLine_renderOperand (hb ▸ h) hnb hrb
  cases opc with
  | scf | ccf | ret | iret => exact show IsLine 20 (lit _) by decide
  | movAccToReg | storeIndirect | storeIndirectOffset =>
    exact ((hlineA (by decide)).append_right (m := 6) (by decide)).mono (by decide)
  | loadImm8 | loadAbs16 =>
    exact ((hlineA (by decide)).append_between (m := 4) (hlineB (by decide)) (by decide)).mono
      (by decide)
  | storeAbs16 =>
    exact ((hlineB (by decide)).append_between (m := 4) (hlineA (by decide)) (by decide)).mono
      (by decide)
  | jccLowGroup | jccHighGroup =>
    exact (((isLine_selectorText ha).append_left (m := 7) (by decide)).append_between (m := 1)
      (hlineB (by decide)) (by decide)).mono (by decide)
  | movRegToAcc | loadIndirect | loadIndirectOffset =>
    exact ((hlineA (by decide)).append_left (m := 6) (by decide)).mono (by decide)
  | _ => exact ((hlineA (by decide)).append_left (m := 8) (by decide)).mono (by decide)

/-- Settles O47: a step with a text is one with a valid Instruction, whose registers are the decoder's. -/
theorem textProperties : Obligations.TextProperties := by
  unfold Obligations.TextProperties
  intro s t text hstep htext
  rcases step_cases s with ⟨-, ins, hvalid, -, hnext⟩ | ⟨-, -, hnext⟩ | ⟨-, hnext⟩
  all_goals
    obtain rfl := Host.Outcome.next.inj (hnext.symm.trans hstep)
  · obtain rfl := Option.some.inj htext
    obtain ⟨h0, h1⟩ := registerNumber_le_of_step hstep rfl
    obtain ⟨-, hslot0, hslot1, hrange0, hrange1⟩ := (isValid_iff ins).1 hvalid
    have hline := isLine_template hslot0 hslot1 h0 h1 hrange0 hrange1
    obtain ⟨hne, hhead, hlast, htwo⟩ := spacing_of_isLine hline
    obtain ⟨hlen, hchars, -⟩ := hline
    exact ⟨hne, hlen, fun _ hc => hchars hc, hhead, hlast, htwo⟩
  · cases htext
  · cases htext

end Sys2Proof.Machine
end

section
/-! The errors (60_exceptions.md). Which of the three results a step has is fixed by two things: the
opcode byte is one of the 28 or it is not, and the window has the bytes that the opcode byte asks for
or it has not. -/

namespace Sys2Proof.Machine

/-! ### `InvalidOpcode` -/

/-- The transaction of a record does not raise `InvalidOpcode` (R192). -/
theorem transact_result_ne_invalidOpcode (s : State) (len : Nat) (ins : Instruction) :
    (s.transact len ins).result ≠ some (.error .invalidOpcode) := by
  rcases transact_cases s len ins with ⟨-, hend⟩ | ⟨-, hend⟩
  · simp [hend]
  · simp [hend]

/-- Of all the meanings only that of an invalid byte raises `InvalidOpcode` (R192). -/
theorem eq_invalid_of_exec_result {i : Instr} {s t : State} (h : exec i s = .next t)
    (hresult : t.result = some (.error .invalidOpcode)) : ∃ op, i = .invalid op := by
  cases i with
  | invalid op => exact ⟨op, rfl⟩
  | _ =>
    obtain rfl := Host.Outcome.next.inj h
    exact (transact_result_ne_invalidOpcode s _ _ hresult).elim

theorem step_result_eq_invalidOpcode_iff {s t : State} {op : Byte}
    (hread : s.stream.read s.pos = some op) (hstep : step s = .next t) :
    t.result = some (.error .invalidOpcode) ↔ isInvalidByte op = true := by
  constructor
  · intro hresult
    obtain ⟨op', hi⟩ := eq_invalid_of_exec_result ((step_of_read hread).symm.trans hstep) hresult
    exact isInvalidByte_of_assemble_eq hi
  · intro hinvalid
    obtain rfl := Host.Outcome.next.inj ((step_of_isInvalidByte hread hinvalid).symm.trans hstep)
    rfl

theorem isInvalidByte_iff (op : Byte) :
    isInvalidByte op = true ↔ 0xa0#8 ≤ op ∧ op ≤ 0xb8#8 ∨ op ∈ [0xbb#8, 0xbd#8, 0xbe#8] := by
  simp [isInvalidByte, or_assoc]

/-- R57 writes 0xb8 apart from the interval below it. -/
theorem isInvalidByte_iff_r57 : ∀ op : Byte, isInvalidByte op = true ↔
    0xa0#8 ≤ op ∧ op ≤ 0xb7#8 ∨ op ∈ [0xb8#8, 0xbb#8, 0xbd#8, 0xbe#8] := by
  decide

/-- Settles O35: only an invalid byte's meaning raises `InvalidOpcode`, and the step at an opcode byte
is the meaning of what that byte begins. -/
theorem invalidOpcodeExactly : Obligations.InvalidOpcodeExactly := by
  unfold Obligations.InvalidOpcodeExactly
  intro s op hread
  have hstep := step_eq_decodeCall s
  exact ⟨_, hstep, (step_result_eq_invalidOpcode_iff hread hstep).trans (isInvalidByte_iff_r57 op)⟩

/-! ### `Truncated` -/

/-- Settles O26: every meaning is one of two transactions, and both raise `Truncated` at the first byte
that is not there (`exec_of_available_lt`). -/
theorem shortWindowTakesTruncated : Obligations.ShortWindowTakesTruncated := by
  unfold Obligations.ShortWindowTakesTruncated
  exact fun _ _ => exec_of_available_lt

/-- A step gives `Truncated` on a short window only, and has then read all of it (R191, R197). -/
theorem eq_afterError_of_truncated {s t : State} (hstep : step s = .next t)
    (hresult : t.result = some (.error .truncated)) :
    s.available s.wanted < s.wanted ∧ t = s.afterError (s.available s.wanted) .truncated := by
  rcases step_cases s with ⟨-, ins, -, -, hend⟩ | ⟨-, -, hend⟩ | ⟨hshort, hend⟩
  all_goals
    obtain rfl := Host.Outcome.next.inj (hend.symm.trans hstep)
  · simp at hresult
  · simp at hresult
  · exact ⟨hshort, rfl⟩

/-- After `Truncated` no byte is at the cursor: it is at the end of the window (R197). -/
theorem read_pos_of_truncated {s t : State} (hstep : step s = .next t)
    (hresult : t.result = some (.error .truncated)) : t.stream.read t.pos = none := by
  obtain ⟨hshort, rfl⟩ := eq_afterError_of_truncated hstep hresult
  exact peek_short _ _ _ hshort

/-- Settles O38: with no byte at the cursor a step is `Truncated` after no byte. -/
theorem truncatedStaysTruncated : Obligations.TruncatedStaysTruncated := by
  unfold Obligations.TruncatedStaysTruncated
  exact fun _ _ hstep hresult => step_of_read_none (read_pos_of_truncated hstep hresult)

/-- A window that ends before `j` bytes has the same bytes however many more are asked for. -/
theorem available_eq_of_short {s : State} {j k : Nat} (hj : s.available j < j)
    (hk : s.available j ≤ k) : s.available k = s.available j := by
  rcases Nat.le_total j k with hjk | hkj
  · have := available_min s hjk
    omega
  · have := available_min s hkj
    omega

/-! ### The cursor after a step -/

@[simp] theorem afterInstruction_offset (s : State) (ins : Instruction) (text : Text) :
    (s.afterInstruction ins text).offset = ins.byteLength :=
  Nat.add_sub_cancel_left ..

@[simp] theorem afterError_offset (s : State) (k : Nat) (e : DecodeError) :
    (s.afterError k e).offset = k :=
  Nat.add_sub_cancel_left ..

/-- Settles O37: the three ends of a step, each with its own distance from the mark. A window too
short for its instruction has at most two bytes. -/
theorem cursorAfterEachOutcome : Obligations.CursorAfterEachOutcome := by
  unfold Obligations.CursorAfterEachOutcome
  intro s t hstep
  rcases step_cases s with ⟨-, out, -, -, hend⟩ | ⟨-, -, hend⟩ | ⟨hshort, hend⟩
  all_goals
    obtain rfl := Host.Outcome.next.inj (hend.symm.trans hstep)
  · simp
  · simp
  · have htwo : s.available s.wanted ≤ 2 := Nat.le_of_lt_succ (hshort.trans_le (wanted_le s))
    have hread := read_pos_of_truncated hstep (afterError_result ..)
    simpa [available_eq_of_short hshort htwo] using hread

/-! ### Every case by the opcode byte and the window -/

theorem one_le_available_of_read {s : State} {op : Byte} (h : s.stream.read s.pos = some op)
    {k : Nat} (hk : 1 ≤ k) : 1 ≤ s.available k := by
  have hmin := available_min s hk
  rw [available_one_of_read h] at hmin
  omega

/-- At a byte that begins an instruction of `len` bytes, a step gives an Instruction if they are there,
and `Truncated` if not (R191, R193). -/
theorem step_result_of_length {s t : State} {op : Byte} {len : Nat}
    (hread : s.stream.read s.pos = some op) (hvalid : ¬ isInvalidByte op = true)
    (hstep : step s = .next t) (hlen : 1 + followOn op = len) :
    (s.available len = len → ∃ ins, t.result = some (.instruction ins)) ∧
      (s.available len < len → t.result = some (.error .truncated)) := by
  have hwanted : s.wanted = len := by simp only [State.wanted, hread, hlen]
  have hne := mt (step_result_eq_invalidOpcode_iff hread hstep).1 hvalid
  rw [← hwanted]
  rcases step_cases s with ⟨hall, ins, -, -, hend⟩ | ⟨-, -, hend⟩ | ⟨hshort, hend⟩
  all_goals
    obtain rfl := Host.Outcome.next.inj (hend.symm.trans hstep)
  · exact ⟨fun _ => ⟨ins, rfl⟩, fun hshort => absurd hall hshort.ne⟩
  · exact absurd rfl hne
  · exact ⟨fun hall => absurd hall hshort.ne, fun _ => rfl⟩

/-- The bytes that ask for one follow-on byte and those that ask for two, by intervals (R45). -/
theorem followOn_eq_of_interval : ∀ op : Byte, followOn op =
    if 0x90#8 ≤ op ∧ op ≤ 0x9f#8 ∨ 0xd8#8 ≤ op ∧ op ≤ 0xe7#8 ∨ 0xf8#8 ≤ op then 1
    else if op ∈ [0xbc#8, 0xbf#8] ∨ 0xc8#8 ≤ op ∧ op ≤ 0xcf#8 ∨ 0xe8#8 ≤ op ∧ op ≤ 0xef#8 then 2
    else 0 := by
  decide

/-- Settles O36: the length by the interval of the opcode byte, against the bytes that are there, of
which the opcode byte itself is always one. -/
theorem truncatedExactly : Obligations.TruncatedExactly := by
  unfold Obligations.TruncatedExactly
  intro s
  have hstep := step_eq_decodeCall s
  refine ⟨_, hstep, fun hempty => ?_, fun op hread => ?_⟩
  · cases hread : s.stream.read s.pos with
    | none =>
      have hend := Host.Outcome.next.inj (hstep.symm.trans (step_of_read_none hread))
      rw [hend, afterError_result]
    | some op => cases (available_one_of_read hread).symm.trans hempty
  · split
    case isTrue hinterval =>
      exact (step_result_eq_invalidOpcode_iff hread hstep).2 ((isInvalidByte_iff op).2 hinterval)
    case isFalse hinterval =>
      have hends {len : Nat} (hlen : 1 + followOn op = len) :=
        step_result_of_length hread (mt (isInvalidByte_iff op).1 hinterval) hstep hlen
      have hone {k : Nat} (hk : 1 ≤ k) := one_le_available_of_read hread hk
      have hle := available_le s
      have hfollow := followOn_eq_of_interval op
      split_ifs at hfollow ⊢ with htwo hpart hthree hpart
      all_goals
        obtain ⟨hall, hshort⟩ := hends (congrArg (1 + ·) hfollow)
      · exact hshort (show s.available 2 < 2 by omega)
      · have := hone (k := 2) (by decide)
        exact hall ((hle 2).antisymm (by omega))
      · exact hshort (show s.available 3 < 3 by omega)
      · have := hone (k := 3) (by decide)
        exact hall ((hle 3).antisymm (by omega))
      · exact hall (available_one_of_read hread)

end Sys2Proof.Machine
end

section
/-! The invariants of R221 and the linear sweep of R220 (70_reset_and_hazards.md). A step that gives an
Instruction has read its bytes and nothing else, so it gives the same one wherever those bytes stand. A
sweep is its first step, with a row for the Instruction if it gives one, and a sweep from where that step
ends; each step that the sweep goes on after leaves fewer of the stream's cells at or behind the cursor. -/

namespace Sys2Proof.Machine

/-! ### What a step gives (R221) -/

/-- Settles O30: each of the three ends of a step is one of the results named, and a valid Instruction
has as many operands as its signature. -/
theorem everyStepGivesAResult : Obligations.EveryStepGivesAResult := by
  unfold Obligations.EveryStepGivesAResult
  intro s
  rcases step_cases s with ⟨-, ins, hvalid, hlen, hstep⟩ | ⟨-, -, hstep⟩ | ⟨-, hstep⟩
  · obtain ⟨hcount, -⟩ := (isValid_iff ins).1 hvalid
    exact ⟨_, hstep, .inl ⟨ins, rfl, hlen ▸ one_le_wanted s, hcount⟩⟩
  · exact ⟨_, hstep, .inr (.inr rfl)⟩
  · exact ⟨_, hstep, .inr (.inl rfl)⟩

/-! ### An Instruction and its bytes -/

/-- A step that gives an Instruction has found every byte that its opcode byte asks for, and the
Instruction is as long as they are (R221 (b)). -/
theorem available_of_instruction {s t : State} {ins : Instruction} (hstep : step s = .next t)
    (hresult : t.result = some (.instruction ins)) :
    ins.byteLength = s.wanted ∧ s.available s.wanted = s.wanted := by
  rcases step_cases s with ⟨havail, out, -, hlen, hend⟩ | ⟨-, -, hend⟩ | ⟨-, hend⟩
  all_goals
    obtain rfl := Host.Outcome.next.inj (hend.symm.trans hstep)
  · obtain rfl : out = ins := by simpa using hresult
    exact ⟨hlen, havail⟩
  · simp at hresult
  · simp at hresult

theorem exists_read_of_instruction {s t : State} {ins : Instruction} (hstep : step s = .next t)
    (hresult : t.result = some (.instruction ins)) : ∃ op, s.stream.read s.pos = some op := by
  obtain ⟨i, hfetch⟩ := exists_fetch_of_result hstep hresult
  obtain ⟨op, hread, -⟩ := eq_assemble_of_fetch hfetch
  exact ⟨op, hread⟩

/-- A peek sees no byte behind the ones it asks for. -/
theorem peek_congr {m m' : Memory} {a b k : Nat} (h : ∀ j < k, m.read (a + j) = m'.read (b + j)) :
    m.peek a k = m'.peek b k := by
  induction k generalizing a b with
  | zero => simp
  | succ k ih =>
    have hhead : m.read a = m'.read b := h 0 k.succ_pos
    have htail : m.peek (a + 1) k = m'.peek (b + 1) k := ih fun j hj => by
      simpa [Nat.add_assoc, Nat.add_comm 1 j] using h (j + 1) (Nat.succ_lt_succ hj)
    rw [peek_succ, peek_succ, hhead, htail]

theorem available_eq_of_agreeOnNext {k : Nat} {s t : State} (h : agreeOnNext k s t) :
    s.available k = t.available k :=
  congrArg List.length (peek_congr h)

theorem byteAhead_eq_of_agreeOnNext {j k : Nat} {s t : State} (h : agreeOnNext k s t) (hj : j < k) :
    s.byteAhead j = t.byteAhead j := by
  rw [State.byteAhead, State.byteAhead, h j hj]

/-- Windows that agree on all the bytes the opcode byte asks for begin the same instruction. -/
theorem assemble_byteAhead_congr {op : Byte} {s t : State} (h : agreeOnNext (1 + followOn op) s t) :
    assemble op (s.byteAhead 1) (s.byteAhead 2) = assemble op (t.byteAhead 1) (t.byteAhead 2) :=
  assemble_congr (fun _ => byteAhead_eq_of_agreeOnNext h (by omega))
    (fun _ => byteAhead_eq_of_agreeOnNext h (by omega))

/-- Settles O34: on both streams the step is the meaning of the same encoded instruction, and all its
bytes are there. -/
theorem instructionDependsOnItsBytesOnly : Obligations.InstructionDependsOnItsBytesOnly := by
  unfold Obligations.InstructionDependsOnItsBytesOnly
  intro s t s' ins hstep hresult hagree
  obtain ⟨op, hread⟩ := exists_read_of_instruction hstep hresult
  obtain ⟨hwanted, havail⟩ := available_of_instruction hstep hresult
  have hlen : ins.byteLength = 1 + followOn op := byteLength_of_step hread hstep hresult
  rw [← hwanted] at havail
  rw [hlen] at hagree havail ⊢
  have hread' : t.stream.read t.pos = some op := (hagree 0 (by omega)).symm.trans hread
  have havail' : t.available (1 + followOn op) = 1 + followOn op :=
    (available_eq_of_agreeOnNext hagree).symm.trans havail
  obtain ⟨t', hstep', hpos⟩ := exists_step_pos t
  have hwanted' : t.wanted = 1 + followOn op := by simp only [State.wanted, hread']
  rw [step_of_read hread, assemble_byteAhead_congr hagree] at hstep
  obtain ⟨hsame, htext⟩ := exec_outputs_eq (by rwa [assemble_length]) (by rwa [assemble_length])
    hstep ((step_of_read hread').symm.trans hstep')
  exact ⟨t', hstep', hsame, htext, by rw [hpos, hwanted', havail']⟩

/-! ### One transaction of a sweep (R220) -/

/-- The line of a sweep for an Instruction found at the cursor. -/
def State.sweepRow (s : State) (ins : Instruction) (text : Text) : SweepRow :=
  let address := instructionAddress s.pos
  ⟨s.pos, address, ins, some text, transferTarget address ins⟩

/-- The report of a sweep that found one Instruction before those of the report given. -/
def SweepReport.addRow (row : SweepRow) (report : SweepReport) : SweepReport :=
  { report with rows := row :: report.rows }

/-- All that a sweep can do with its next transaction: end cleanly with no byte at the cursor; put out a
row and go on behind the Instruction; end at an invalid byte; or end in a window of one or two bytes that
begins a longer instruction. -/
theorem sweep_succ_cases (fuel : Nat) (s : State) :
    (s.stream.read s.pos = none ∧ s.sweep (fuel + 1) = ⟨[], .cleanEnd, s⟩) ∨
    (∃ op ins text, s.stream.read s.pos = some op ∧ 1 ≤ ins.byteLength ∧
      step s = .next (s.afterInstruction ins text) ∧
      s.sweep (fuel + 1) =
        ((s.afterInstruction ins text).sweep fuel).addRow (s.sweepRow ins text)) ∨
    (∃ op, s.stream.read s.pos = some op ∧ isInvalidByte op = true ∧
      s.sweep (fuel + 1) = ⟨[], .invalidOpcode, s.afterError 1 .invalidOpcode⟩) ∨
    (∃ k, 1 ≤ k ∧ k ≤ 2 ∧ s.stream.read (s.pos + k) = none ∧
      s.sweep (fuel + 1) = ⟨[], .truncated, s.afterError k .truncated⟩) := by
  have hcall {t : State} (h : step s = .next t) : s.decodeCall = t :=
    Host.Outcome.next.inj ((step_eq_decodeCall s).symm.trans h)
  cases hread : s.stream.read s.pos with
  | none => exact .inl ⟨rfl, by simp only [State.sweep, hread]⟩
  | some op =>
    rcases step_cases s with ⟨-, ins, -, hlen, hend⟩ | ⟨-, -, hend⟩ | ⟨hshort, hend⟩
    · refine .inr (.inl ⟨op, ins, _, rfl, hlen ▸ one_le_wanted s, hend, ?_⟩)
      simp only [State.sweep, hread, hcall hend, afterInstruction_result]
      rfl
    · refine .inr (.inr (.inl ⟨op, rfl, (step_result_eq_invalidOpcode_iff hread hend).1 rfl, ?_⟩))
      simp only [State.sweep, hread, hcall hend, afterError_result]
    · refine .inr (.inr (.inr ⟨_, one_le_available_of_read hread (one_le_wanted s),
        Nat.le_of_lt_succ (hshort.trans_le (wanted_le s)), peek_short _ _ _ hshort, ?_⟩))
      simp only [State.sweep, hread, hcall hend, afterError_result]

/-! ### A sweep ends -/

/-- The cells of the stream that the cursor has not passed. -/
def State.cellsAhead (s : State) : List Host.Cell := s.stream.filter (s.pos ≤ ·.1)

theorem cellsAhead_length_le (s : State) : s.cellsAhead.length ≤ s.stream.length :=
  List.length_filter_le ..

theorem mem_of_read {m : Memory} {a : Nat} {b : Byte} (h : m.read a = some b) : (a, b) ∈ m := by
  induction m with
  | nil => simp [Memory.read] at h
  | cons x rest ih =>
    obtain ⟨p, c⟩ := x
    rw [Memory.read] at h
    split_ifs at h with hp
    · obtain rfl := Option.some.inj h
      simp [hp]
    · exact List.mem_cons_of_mem _ (ih h)

/-- A cursor that moves on from a byte has passed that byte's cell. -/
theorem cellsAhead_length_lt {s t : State} {op : Byte} (hread : s.stream.read s.pos = some op)
    (hstream : t.stream = s.stream) (hpos : s.pos < t.pos) :
    t.cellsAhead.length < s.cellsAhead.length := by
  have hcells : t.cellsAhead = s.cellsAhead.filter (t.pos ≤ ·.1) := by
    rw [State.cellsAhead, State.cellsAhead, List.filter_filter, hstream]
    refine List.filter_congr fun c _ => ?_
    simpa using fun hc => hpos.le.trans hc
  have hcell : (s.pos, op) ∈ s.cellsAhead :=
    List.mem_filter.2 ⟨mem_of_read hread, decide_eq_true (Nat.le_refl _)⟩
  rw [hcells, List.length_filter_lt_length_iff_exists]
  exact ⟨_, hcell, by simpa using hpos⟩

/-! ### What a sweep accounts for -/

/-- How many bytes the Instructions of a sweep's rows have. -/
def SweepReport.rowBytes (report : SweepReport) : Nat :=
  (report.rows.map fun row => row.ins.byteLength).sum

/-- The three ends of a sweep from `s`, each with what it has consumed: the stream is as it was, and the
cursor stands behind the bytes of the rows and those of the transaction that failed, if one did. -/
def AccountedFrom (s : State) (report : SweepReport) : Prop :=
  report.final.stream = s.stream ∧
  ((report.ending = .cleanEnd ∧ report.final.pos = s.pos + report.rowBytes ∧
      s.stream.read report.final.pos = none) ∨
    (report.ending = .invalidOpcode ∧ report.final.pos = s.pos + report.rowBytes + 1 ∧
      ∃ op, s.stream.read (s.pos + report.rowBytes) = some op ∧ isInvalidByte op = true) ∨
    (report.ending = .truncated ∧ s.stream.read report.final.pos = none ∧
      s.pos + report.rowBytes < report.final.pos ∧
      report.final.pos ≤ s.pos + report.rowBytes + 2))

theorem rowBytes_addRow (row : SweepRow) (report : SweepReport) :
    (report.addRow row).rowBytes = row.ins.byteLength + report.rowBytes :=
  List.sum_cons

/-- The bytes of an Instruction count the same as a row and as the way to where the rest begins. -/
theorem accountedFrom_addRow {s : State} {ins : Instruction} {text : Text} {report : SweepReport}
    (h : AccountedFrom (s.afterInstruction ins text) report) :
    AccountedFrom s (report.addRow (s.sweepRow ins text)) := by
  have hbytes : s.pos + (report.addRow (s.sweepRow ins text)).rowBytes =
      (s.afterInstruction ins text).pos + report.rowBytes := by
    rw [rowBytes_addRow, afterInstruction_pos, Nat.add_assoc]
    rfl
  unfold AccountedFrom
  rw [hbytes]
  exact h

/-- A sweep that may make more transactions than there are cells ahead reaches one of its ends. -/
theorem accountedFrom_sweep {fuel : Nat} {s : State} (hfuel : s.cellsAhead.length < fuel) :
    AccountedFrom s (s.sweep fuel) := by
  induction fuel generalizing s with
  | zero => omega
  | succ fuel ih =>
    rcases sweep_succ_cases fuel s with ⟨hread, hend⟩ | ⟨op, ins, text, hread, hlen, -, hend⟩ |
      ⟨op, hread, hinvalid, hend⟩ | ⟨k, hmin, hmax, hread, hend⟩
    all_goals rw [hend]
    · exact ⟨rfl, .inl ⟨rfl, rfl, hread⟩⟩
    · have hlt : (s.afterInstruction ins text).cellsAhead.length < s.cellsAhead.length :=
        cellsAhead_length_lt hread rfl (Nat.lt_add_of_pos_right hlen)
      exact accountedFrom_addRow (ih (by omega))
    · exact ⟨rfl, .inr (.inl ⟨rfl, rfl, op, hread, hinvalid⟩)⟩
    · exact ⟨rfl, .inr (.inr ⟨rfl, hread, Nat.lt_add_of_pos_right hmin,
        Nat.add_le_add_left hmax s.pos⟩)⟩

/-- Settles O55: a sweep may make one transaction more than the stream has cells, so it reaches one of
its ends. -/
theorem sweepEndsAndAccountsForEveryByte : Obligations.SweepEndsAndAccountsForEveryByte := by
  unfold Obligations.SweepEndsAndAccountsForEveryByte
  exact fun s => accountedFrom_sweep (Nat.lt_succ_of_le (cellsAhead_length_le s))

/-! ### The rows of a sweep -/

/-- The row says what the step at its position gives, with the stream of `s`. -/
def IsStepAt (s : State) (row : SweepRow) : Prop :=
  ∃ t, step { s with pos := row.position } = .next t ∧
    t.result = some (.instruction row.ins) ∧ t.text = row.text

theorem isStepAt_sweepRow {s : State} {ins : Instruction} {text : Text}
    (h : step s = .next (s.afterInstruction ins text)) : IsStepAt s (s.sweepRow ins text) :=
  ⟨_, h, rfl, rfl⟩

/-- What a row stands for does not depend on the transactions before it (R198). -/
theorem isStepAt_of_afterInstruction {s : State} {ins : Instruction} {text : Text} {row : SweepRow}
    (h : IsStepAt (s.afterInstruction ins text) row) : IsStepAt s row := by
  obtain ⟨t, hstep, houtputs⟩ := h
  have hforget := stepForgetsEarlierTransactions { s with pos := row.position } s.pos
    (some (.instruction ins)) (some text)
  exact ⟨t, hforget.symm.trans hstep, houtputs⟩

/-- Each row of a sweep is the step behind the rows before it, however many transactions are allowed. -/
theorem sweep_rows (fuel : Nat) (s : State) {before after : List SweepRow} {row : SweepRow}
    (h : (s.sweep fuel).rows = before ++ row :: after) :
    row.position = s.pos + (before.map fun r => r.ins.byteLength).sum ∧ IsStepAt s row := by
  induction fuel generalizing s before with
  | zero => simp [State.sweep] at h
  | succ fuel ih =>
    rcases sweep_succ_cases fuel s with ⟨-, hend⟩ | ⟨op, ins, text, -, -, hstep, hend⟩ |
      ⟨op, -, -, hend⟩ | ⟨k, -, -, -, hend⟩
    all_goals rw [hend] at h
    case inr.inl =>
      cases before with
      | nil =>
        obtain ⟨rfl, -⟩ := List.cons.inj h
        exact ⟨rfl, isStepAt_sweepRow hstep⟩
      | cons head before =>
        obtain ⟨rfl, hrest⟩ := List.cons.inj h
        obtain ⟨hpos, hat⟩ := ih (s.afterInstruction ins text) hrest
        refine ⟨?_, isStepAt_of_afterInstruction hat⟩
        rw [hpos, afterInstruction_pos, List.map_cons, List.sum_cons, Nat.add_assoc]
        rfl
    all_goals simp at h

/-- Settles O56: a full sweep is one of the sweeps of `sweep_rows`. -/
theorem sweepRowsAreConsecutiveSteps : Obligations.SweepRowsAreConsecutiveSteps := by
  unfold Obligations.SweepRowsAreConsecutiveSteps
  exact fun s _ _ _ h => sweep_rows _ s h

end Sys2Proof.Machine
end

section
/-! The dispatch of the step, and the placing of an instruction at the cursor (30_encoding.md section 5,
log entries 6 and 16). The step goes by what the window decodes to; bytes stored at the cursor are the
window, so the instruction they decode to is the one the step runs. -/

namespace Sys2Proof

theorem decodeTableWord_eq_some_iff {nbits w : Nat} {i : Instr} :
    decodeTableWord nbits w = some i ↔ ∃ rest, decode (tableBytes nbits w) = .ok (i, rest) := by
  unfold decodeTableWord
  rcases decode (tableBytes nbits w) with e | ⟨j, rest⟩ <;> simp

end Sys2Proof

namespace Sys2Proof.Machine

/-! ### The dispatch -/

theorem fetch_eq_error_iff {s : State} {e : DecodeError} :
    s.fetch = .error e ↔ decode s.ahead = .error e := by
  unfold State.fetch
  rcases decode s.ahead with d | ⟨j, rest⟩ <;> simp

theorem step_of_fetch_ok {s : State} {i : Instr} (h : s.fetch = .ok i) : step s = exec i s := by
  simp only [step, h]

theorem step_of_fetch_error {s : State} {e : DecodeError} (h : s.fetch = .error e) :
    step s = .next s.transactTruncated := by
  simp only [step, h]

/-- Settles O28: the fetch gives the instruction the window decodes to, or the decoder's error. -/
theorem stepRunsTheDecodedInstruction : Obligations.StepRunsTheDecodedInstruction := by
  unfold Obligations.StepRunsTheDecodedInstruction
  exact ⟨fun _ _ rest h => step_of_fetch_ok (fetch_eq_ok_iff.2 ⟨rest, h⟩),
    fun _ _ h => step_of_fetch_error (fetch_eq_error_iff.2 h)⟩

/-! ### An instruction placed at the cursor -/

/-- A peek at a run of bytes just written, as long as the run, is the run, whatever the stream held. -/
theorem peek_writeBytes (m : Memory) (a : Nat) (bs : List Byte) :
    (m.writeBytes a bs).peek a bs.length = bs := by
  induction bs generalizing m a with
  | nil => exact peek_zero _ _
  | cons b rest ih =>
    have hhead : (m.writeBytes a (b :: rest)).read a = some b :=
      read_writeBytes_inside m a 0 (b :: rest) (Nat.succ_pos _)
    have htail : (m.writeBytes a (b :: rest)).peek (a + 1) rest.length = rest := ih _ _
    simp only [List.length_cons, peek_succ, hhead, htail]

/-- The bytes placed fill the fetch's window, so it sees none that the stream held before. -/
theorem ahead_withFetchWord (s : State) (nbits w : Nat) :
    (s.withFetchWord nbits w).ahead = tableBytes nbits w :=
  peek_writeBytes s.stream s.pos (tableBytes nbits w)

/-- Settles O40: the window is the word placed, and the step runs what it decodes to. -/
theorem fetchWordIsRunNext : Obligations.FetchWordIsRunNext := by
  unfold Obligations.FetchWordIsRunNext
  intro s nbits w i h
  obtain ⟨rest, hdecode⟩ := decodeTableWord_eq_some_iff.1 h
  rw [← ahead_withFetchWord s] at hdecode
  exact step_of_fetch_ok (fetch_eq_ok_iff.2 ⟨rest, hdecode⟩)

end Sys2Proof.Machine
end
